-- ==== Sys2Proof/Word.lean ====
section
/-! DEFINITION. The word and byte of the machine and their plainest readings (00_scope.md R6). -/

namespace Sys2Proof

/-- A "byte": 8 bits (R6). -/
abbrev Byte := BitVec 8

/-- A "word": 32 bits, a u32 (R6, XLEN of R5). -/
abbrev Word := BitVec 32

end Sys2Proof
end

