-- ==== Sys2Proof/Syntax.lean ====
section
/-! DEFINITION. The 33 instructions of spec/opcode_table.json (30_encoding.md R55, R56), one constructor each.
A register operand is its argument BYTE: a byte above 36 names no slot, and `Instr.wf` refuses it. Argument bytes an
instruction ignores (R58) are kept as the fields `x1 x2 x3`, so that no bit of an instruction word is lost (log 9);
no meaning reads them. -/

namespace Sys2Proof

/-- A register operand as it stands in the instruction: one argument byte (R15, R16). -/
abbrev Reg := Byte

/-- The instructions, in the order of the source's opcode table. -/
inductive Instr where
  -- 40_arith_logic.md
  | nop (x1 x2 x3 : Byte)
  | add (rd rs1 rs2 : Reg)
  | sub (rd rs1 rs2 : Reg)
  | and (rd rs1 rs2 : Reg)
  | orr (rd rs1 rs2 : Reg)
  | xor (rd rs1 rs2 : Reg)
  | not (rd rs1 : Reg) (x3 : Byte)
  | lsh (rd rs1 rs2 : Reg)
  | ash (rd rs1 rs2 : Reg)
  | tcu (rd rs1 rs2 : Reg)
  | tcs (rd rs1 rs2 : Reg)
  -- 41_move_load_store.md
  | set (rd : Reg) (imm16 : BitVec 16)
  | mov (rd rs1 : Reg) (x3 : Byte)
  | ldw (rd rbase : Reg) (off8 : Byte)
  | stw (rsrc rbase : Reg) (off8 : Byte)
  | ldb (rd rbase : Reg) (off8 : Byte)
  | stb (rsrc rbase : Reg) (off8 : Byte)
  -- 42_control_transfer.md
  | jmi (imm24 : BitVec 24)
  | jmp (rtarget : Reg) (x2 x3 : Byte)
  | bve (rtarget rs1 : Reg) (cmp8 : Byte)
  | bvn (rtarget rs1 : Reg) (cmp8 : Byte)
  | cal (rtarget : Reg) (x2 x3 : Byte)
  | ret (x1 x2 x3 : Byte)
  -- 43_muldiv_extended.md
  | mul (rd rs1 rs2 : Reg)
  | div (rd rs1 rs2 : Reg)
  | mod (rd rs1 rs2 : Reg)
  | sia (rd : Reg) (val8 sh8 : Byte)
  | sup (rd : Reg) (imm16 : BitVec 16)
  | sxt (rd rs1 : Reg) (x3 : Byte)
  | seq (rd rs1 : Reg) (cmp8 : Byte)
  -- 44_system.md
  | int (imm24 : BitVec 24)
  | snd (rdev rcmd rdata : Reg)
  | hlt (x1 x2 x3 : Byte)
  deriving DecidableEq, Repr

end Sys2Proof
end

