-- ==== Sys2Proof/WellFormed.lean ====
section
/-! DEFINITION. The one check an instruction must pass: every register-operand byte names a slot (10_state.md R16,
30_encoding.md R56). -/

namespace Sys2Proof

/-- "indices are valid only in 0–36" (R10, R16). -/
def regOk (r : Reg) : Bool := r.toNat ≤ 36

/-- The argument bytes of the positions marked R in R56, whether or not the execution reads that register. -/
def Instr.regOperands : Instr → List Reg
  | .nop _ _ _ => []
  | .add rd rs1 rs2 => [rd, rs1, rs2]
  | .sub rd rs1 rs2 => [rd, rs1, rs2]
  | .and rd rs1 rs2 => [rd, rs1, rs2]
  | .orr rd rs1 rs2 => [rd, rs1, rs2]
  | .xor rd rs1 rs2 => [rd, rs1, rs2]
  | .not rd rs1 _ => [rd, rs1]
  | .lsh rd rs1 rs2 => [rd, rs1, rs2]
  | .ash rd rs1 rs2 => [rd, rs1, rs2]
  | .tcu rd rs1 rs2 => [rd, rs1, rs2]
  | .tcs rd rs1 rs2 => [rd, rs1, rs2]
  | .set rd _ => [rd]
  | .mov rd rs1 _ => [rd, rs1]
  | .ldw rd rbase _ => [rd, rbase]
  | .stw rsrc rbase _ => [rsrc, rbase]
  | .ldb rd rbase _ => [rd, rbase]
  | .stb rsrc rbase _ => [rsrc, rbase]
  | .jmi _ => []
  | .jmp rtarget _ _ => [rtarget]
  | .bve rtarget rs1 _ => [rtarget, rs1]
  | .bvn rtarget rs1 _ => [rtarget, rs1]
  | .cal rtarget _ _ => [rtarget]
  | .ret _ _ _ => []
  | .mul rd rs1 rs2 => [rd, rs1, rs2]
  | .div rd rs1 rs2 => [rd, rs1, rs2]
  | .mod rd rs1 rs2 => [rd, rs1, rs2]
  | .sia rd _ _ => [rd]
  | .sup rd _ => [rd]
  | .sxt rd rs1 _ => [rd, rs1]
  | .seq rd rs1 _ => [rd, rs1]
  | .int _ => []
  | .snd rdev rcmd rdata => [rdev, rcmd, rdata]
  | .hlt _ _ _ => []

/-- An instruction that is not UNDEFINED by R16. -/
def Instr.wf (i : Instr) : Bool := i.regOperands.all regOk

end Sys2Proof
end

