-- ==== Sys2Proof/Decode.lean ====
section
/-! DEFINITION. The decoder and, after it, the encoder (30_encoding.md R50 to R60). The decoder has two stages: the
split into four byte lanes, pure and total with no failure (R51), and the reading of the lanes as one of the 33
instructions by the opcode map (R55), which rejects by name every opcode byte outside the map (R57). -/

namespace Sys2Proof

/-- The instruction record "(opcode, a1, a2, a3)" of R51, R23. -/
structure Lanes where
  op : Byte
  a1 : Byte
  a2 : Byte
  a3 : Byte
  deriving DecidableEq, Repr

/-- R51: "splitting the word into four byte lanes, most-significant byte first". -/
def lanes (w : Word) : Lanes where
  op := w.extractLsb' 24 8
  a1 := w.extractLsb' 16 8
  a2 := w.extractLsb' 8 8
  a3 := w.extractLsb' 0 8

/-- Why a word names no instruction. -/
inductive DecodeError where
  /-- R57: the opcode byte is none of the 33 of R55. -/
  | illegalOpcode (op : Byte)
  deriving DecidableEq, Repr

/-- imm16 of R54: a2 is the low byte, a3 the high byte. -/
def imm16Of (a2 a3 : Byte) : BitVec 16 := a3 ++ a2

/-- imm24 of R54: a1 is the low byte, a3 the high byte. -/
def imm24Of (a1 a2 a3 : Byte) : BitVec 24 := a3 ++ a2 ++ a1

/-- The opcode map of R55 with the operand positions of R56. -/
def decodeLanes (l : Lanes) : Except DecodeError Instr :=
  match l.op.toNat with
  | 0x00 => .ok (.nop l.a1 l.a2 l.a3)
  | 0x01 => .ok (.add l.a1 l.a2 l.a3)
  | 0x02 => .ok (.sub l.a1 l.a2 l.a3)
  | 0x03 => .ok (.and l.a1 l.a2 l.a3)
  | 0x04 => .ok (.orr l.a1 l.a2 l.a3)
  | 0x05 => .ok (.xor l.a1 l.a2 l.a3)
  | 0x06 => .ok (.not l.a1 l.a2 l.a3)
  | 0x07 => .ok (.lsh l.a1 l.a2 l.a3)
  | 0x08 => .ok (.ash l.a1 l.a2 l.a3)
  | 0x09 => .ok (.tcu l.a1 l.a2 l.a3)
  | 0x0A => .ok (.tcs l.a1 l.a2 l.a3)
  | 0x0B => .ok (.set l.a1 (imm16Of l.a2 l.a3))
  | 0x0C => .ok (.mov l.a1 l.a2 l.a3)
  | 0x0D => .ok (.ldw l.a1 l.a2 l.a3)
  | 0x0E => .ok (.stw l.a1 l.a2 l.a3)
  | 0x0F => .ok (.ldb l.a1 l.a2 l.a3)
  | 0x10 => .ok (.stb l.a1 l.a2 l.a3)
  | 0x20 => .ok (.jmi (imm24Of l.a1 l.a2 l.a3))
  | 0x21 => .ok (.jmp l.a1 l.a2 l.a3)
  | 0x24 => .ok (.bve l.a1 l.a2 l.a3)
  | 0x25 => .ok (.bvn l.a1 l.a2 l.a3)
  | 0x2A => .ok (.cal l.a1 l.a2 l.a3)
  | 0x2B => .ok (.ret l.a1 l.a2 l.a3)
  | 0x30 => .ok (.mul l.a1 l.a2 l.a3)
  | 0x31 => .ok (.div l.a1 l.a2 l.a3)
  | 0x32 => .ok (.mod l.a1 l.a2 l.a3)
  | 0x40 => .ok (.sia l.a1 l.a2 l.a3)
  | 0x41 => .ok (.sup l.a1 (imm16Of l.a2 l.a3))
  | 0x42 => .ok (.sxt l.a1 l.a2 l.a3)
  | 0x43 => .ok (.seq l.a1 l.a2 l.a3)
  | 0xF0 => .ok (.int (imm24Of l.a1 l.a2 l.a3))
  | 0xFD => .ok (.snd l.a1 l.a2 l.a3)
  | 0xFF => .ok (.hlt l.a1 l.a2 l.a3)
  | _ => .error (.illegalOpcode l.op)

/-- The instruction a word stands for, or the name of why it stands for none. Total on every word. -/
def decode (w : Word) : Except DecodeError Instr := decodeLanes (lanes w)

/-- The host's reading of a table row: `w` holds the instruction's low `nbits` bits, the bits above are 0. One
instruction is one 32-bit word (R50), whose bit numbering the table shares. -/
def decodeTableWord (nbits w : Nat) : Option Instr :=
  match decode (BitVec.ofNat 32 (w % 2 ^ nbits)) with
  | .ok i => some i
  | .error _ => none

/-- R52: `encode(opcode, a1, a2, a3)`, the four lanes put together again. -/
def Lanes.word (l : Lanes) : Word := l.op ++ l.a1 ++ l.a2 ++ l.a3

/-- The lanes of `op rd imm16` (R54: low byte in a2, high byte in a3). -/
def imm16Lanes (op a1 : Byte) (imm16 : BitVec 16) : Lanes :=
  ⟨op, a1, imm16.extractLsb' 0 8, imm16.extractLsb' 8 8⟩

/-- The lanes of `op imm24` (R54: low byte in a1, high byte in a3). -/
def imm24Lanes (op : Byte) (imm24 : BitVec 24) : Lanes :=
  ⟨op, imm24.extractLsb' 0 8, imm24.extractLsb' 8 8, imm24.extractLsb' 16 8⟩

/-- The lanes of an instruction, by the opcode map of R55. -/
def encodeLanes : Instr → Lanes
  | .nop x1 x2 x3 => ⟨0x00, x1, x2, x3⟩
  | .add rd rs1 rs2 => ⟨0x01, rd, rs1, rs2⟩
  | .sub rd rs1 rs2 => ⟨0x02, rd, rs1, rs2⟩
  | .and rd rs1 rs2 => ⟨0x03, rd, rs1, rs2⟩
  | .orr rd rs1 rs2 => ⟨0x04, rd, rs1, rs2⟩
  | .xor rd rs1 rs2 => ⟨0x05, rd, rs1, rs2⟩
  | .not rd rs1 x3 => ⟨0x06, rd, rs1, x3⟩
  | .lsh rd rs1 rs2 => ⟨0x07, rd, rs1, rs2⟩
  | .ash rd rs1 rs2 => ⟨0x08, rd, rs1, rs2⟩
  | .tcu rd rs1 rs2 => ⟨0x09, rd, rs1, rs2⟩
  | .tcs rd rs1 rs2 => ⟨0x0A, rd, rs1, rs2⟩
  | .set rd imm16 => imm16Lanes 0x0B rd imm16
  | .mov rd rs1 x3 => ⟨0x0C, rd, rs1, x3⟩
  | .ldw rd rbase off8 => ⟨0x0D, rd, rbase, off8⟩
  | .stw rsrc rbase off8 => ⟨0x0E, rsrc, rbase, off8⟩
  | .ldb rd rbase off8 => ⟨0x0F, rd, rbase, off8⟩
  | .stb rsrc rbase off8 => ⟨0x10, rsrc, rbase, off8⟩
  | .jmi imm24 => imm24Lanes 0x20 imm24
  | .jmp rtarget x2 x3 => ⟨0x21, rtarget, x2, x3⟩
  | .bve rtarget rs1 cmp8 => ⟨0x24, rtarget, rs1, cmp8⟩
  | .bvn rtarget rs1 cmp8 => ⟨0x25, rtarget, rs1, cmp8⟩
  | .cal rtarget x2 x3 => ⟨0x2A, rtarget, x2, x3⟩
  | .ret x1 x2 x3 => ⟨0x2B, x1, x2, x3⟩
  | .mul rd rs1 rs2 => ⟨0x30, rd, rs1, rs2⟩
  | .div rd rs1 rs2 => ⟨0x31, rd, rs1, rs2⟩
  | .mod rd rs1 rs2 => ⟨0x32, rd, rs1, rs2⟩
  | .sia rd val8 sh8 => ⟨0x40, rd, val8, sh8⟩
  | .sup rd imm16 => imm16Lanes 0x41 rd imm16
  | .sxt rd rs1 x3 => ⟨0x42, rd, rs1, x3⟩
  | .seq rd rs1 cmp8 => ⟨0x43, rd, rs1, cmp8⟩
  | .int imm24 => imm24Lanes 0xF0 imm24
  | .snd rdev rcmd rdata => ⟨0xFD, rdev, rcmd, rdata⟩
  | .hlt x1 x2 x3 => ⟨0xFF, x1, x2, x3⟩

/-- The word of an instruction. -/
def encode (i : Instr) : Word := (encodeLanes i).word

/-- The bytes of a word as memory holds them, lowest address first: big-endian (R31, R53). -/
def wordBytes (w : Word) : List Byte := [(lanes w).op, (lanes w).a1, (lanes w).a2, (lanes w).a3]

end Sys2Proof
end

