-- ==== Sys2Proof/Config.lean ====
section
/-! DEFINITION. What an implementation fixes: the parameters of 00_scope.md R5. MEM_SIZE and SXT_SRC_BITS are OPEN
in the spec; a machine holds its own pair of them in State, and this file says which values they may take. -/

namespace Sys2Proof.Config

/-- Bytes in one instruction: the one instruction width (R5 ILEN, R50, R60). -/
def instrBytes : Nat := 4

/-- The largest MEM_SIZE: addresses are unsigned 32-bit offsets (R5, D18). -/
def maxMemSize : Nat := 2 ^ 32

/-- The values SXT_SRC_BITS may take: 8, 16 or 32 (R5, R115). -/
inductive SxtWidth where
  | bits8
  | bits16
  | bits32
  deriving DecidableEq, Repr, Inhabited

/-- The number of bits a width stands for. -/
def SxtWidth.toNat : SxtWidth → Nat
  | .bits8 => 8
  | .bits16 => 16
  | .bits32 => 32

/-- DESIGN CHOICE (log 4), safe. SXT_SRC_BITS of the machine that `State.reset` builds: an uninterpreted constant,
since R115 leaves it open and N26 forbids assuming any of the three. -/
opaque sxtSrcBits : SxtWidth

end Sys2Proof.Config
end

