-- ==== Sys2Proof/Machine/Platform.lean ====
section
/-! DEFINITION. The two open parameters of 00_scope.md R5 as the machine of `State.reset` has them. They are the
model's choice of one instance (logs 3 and 4); every other state may hold any other pair, and no statement about a
step rests on these two. -/

namespace Sys2Proof.Machine

/-- DESIGN CHOICE (log 3), unsafe for claims about the reset state alone. MEM_SIZE at reset: the largest the spec
allows (R5, D18), so that memory is the whole 32-bit address space. -/
def memSizeAtReset : Nat := Config.maxMemSize

/-- DESIGN CHOICE (log 4), safe. SXT_SRC_BITS at reset: the uninterpreted constant (R115, D9). -/
def sxtSrcBitsAtReset : Config.SxtWidth := Config.sxtSrcBits

end Sys2Proof.Machine
end

