-- ==== Sys2Proof/Machine/State.lean ====
section
/-! DEFINITION. The state of one machine (10_state.md), the reasons a step can stop, and the state after reset.
The spec's mutable state is the 37 registers, the memory bytes and the executing flag (R10, R18, R19, R21). Beside
them stand the parameters of the machine (MEM_SIZE, SXT_SRC_BITS: R5) and the model's two own fields for the host:
the replies it will give (log 1) and the invocations made so far (log 2). -/

namespace Sys2Proof.Machine

/-- The error kinds of R130, in the order of their codes 0, 1, 2. -/
inductive ErrorKind where
  | illegalOpcode
  | invalidMemoryAccess
  | divisionByZero
  deriving DecidableEq, Repr

/-- One invocation of a host port, with all that the core sends (R148, R163). -/
inductive HostEvent where
  | interrupt (code : Word)
  | error (kind : ErrorKind)
  | device (id command data : Word)
  deriving DecidableEq, Repr

/-- DESIGN CHOICE (log 1). What one callback does to the state, as data (R137): registers it writes, in order; memory
bytes it writes, in order; whether it clears executing; and the u32 a device callback returns, which the core discards
(R121). A reply cannot set executing, and has no way to change MEM_SIZE. -/
structure HostReply where
  regs : List (Reg × Word)
  mem : List Host.Cell
  halt : Bool
  ret : Word
  deriving DecidableEq, Repr

/-- The memory buffer as the bytes that differ from `Memory.unlisted`, by rising address. -/
abbrev Memory := List Host.Cell

/-- What an unlisted address reads as: init writes "zero [to] all memory" (R150, R26; log 6). -/
def Memory.unlisted : Byte := 0

/-- The canonical form: addresses strictly rising, no entry equal to what an unlisted address reads as. -/
abbrev Memory.wf (m : Memory) : Prop :=
  m.Pairwise (fun c d => c.1 < d.1) ∧ ∀ c ∈ m, c.2 ≠ Memory.unlisted

/-- The machine. `regs` is the one register file of 37 slots (R10): r0 to r31, then PC, LR, AD, AT, SP (R12).
`memSize` and `sxtSrcBits` are MEM_SIZE and SXT_SRC_BITS (R5), which no step changes. `replies` holds what the host's
callbacks will do, the next invocation's first; when it is empty no callback is registered, and an invocation leaves
the state alone (R22, R137). `events` holds the invocations made so far, oldest first; nothing reads it. -/
structure State where
  regs : Vector Word 37
  mem : Memory
  executing : Bool
  memSize : Nat
  sxtSrcBits : Config.SxtWidth
  replies : List HostReply
  events : List HostEvent
  deriving DecidableEq, Repr

/-- Why a step has no next state. -/
inductive Fault where
  /-- Raised by every meaning for a register-operand byte above 36 (R16, R56, D2): the spec calls the instruction
  UNDEFINED. Safe: the machine stops. -/
  | undefinedRegister
  deriving DecidableEq, Repr

/-- Why an operation is refused. -/
inductive Refusal where
  /-- Raised by an arm of `exec` that has no meaning yet (none has this now). Safe. -/
  | notModelled (mnemonic : String)
  /-- Raised by the host operation `load` for a program of more than MEM_SIZE bytes (R152, D19): not a transition.
  Safe. -/
  | programTooLong
  deriving DecidableEq, Repr

/-- How an operation of the machine ends. -/
abbrev Result := Host.Outcome State Fault Refusal

/-- The machine after reset, which is init followed by load (R153, D20), here of the empty program (R152 allows n = 0):
all registers 0 but SP = MEM_SIZE - 1, all memory zero, RUNNING at PC = 0 (R26). A program comes in from outside by
`load` (log 5). -/
def State.reset : State where
  regs := (Vector.replicate 37 (0 : Word)).set 36 (BitVec.ofNat 32 (memSizeAtReset - 1))
  mem := []
  executing := true
  memSize := memSizeAtReset
  sxtSrcBits := sxtSrcBitsAtReset
  replies := []
  events := []

end Sys2Proof.Machine
end

