-- ==== Sys2Proof/Machine/Ops.lean ====
section
/-! DEFINITION. The named operations over registers, memory and the host ports: every meaning is written over these.
The machine has no trap entry and no return from one (60_exceptions.md R140, R141); what takes their place, reporting
an error to the host and going on, is `State.raise`. -/

namespace Sys2Proof.Machine

/-! ### Registers (10_state.md R10 to R16) -/

/-- The slots of the special registers (R12). -/
def Slot.pc : Reg := 32
def Slot.lr : Reg := 33
def Slot.ad : Reg := 34
def Slot.at : Reg := 35
def Slot.sp : Reg := 36

/-- `x[r]` (R7). A byte above 36 names no slot; every meaning checks its operands before it reads (R16). -/
def State.reg (s : State) (r : Reg) : Word := (s.regs[r.toNat]?).getD 0

/-- `x[r] <- v` (R7): one slot changes, no slot is hard-wired (R11), and no slot shares storage (R10). -/
def State.setReg (s : State) (r : Reg) (v : Word) : State :=
  { s with regs := s.regs.setIfInBounds r.toNat v }

/-- `pc`, slot 32: during an instruction, that instruction's own address (R13). -/
def State.pc (s : State) : Word := s.reg Slot.pc

/-- `pc <- t` of a control transfer (R7). That the step then does not add 4 is that no `advance` follows (R156). -/
def State.jump (s : State) (t : Word) : State := s.setReg Slot.pc t

/-- `advance`: `x[32] <- (x[32] + 4) mod 2^32`, on whatever PC the instruction or a callback left (R156, D13). -/
def State.advance (s : State) : State := s.setReg Slot.pc (s.pc + BitVec.ofNat 32 Config.instrBytes)

/-! ### Memory (20_memory.md R30 to R39) -/

/-- `mem[a]`. -/
def Memory.read : Memory → Nat → Byte
  | [], _ => Memory.unlisted
  | c :: rest, a => if a = c.1 then c.2 else Memory.read rest a

/-- The cells without any at address `a`. -/
def Memory.erase (m : Memory) (a : Nat) : Memory := m.filter (fun c => decide (c.1 ≠ a))

/-- The cells with `b` at address `a`, in rising order. -/
def Memory.insert : Memory → Nat → Byte → Memory
  | [], a, b => [(a, b)]
  | c :: rest, a, b =>
    if a < c.1 then (a, b) :: c :: rest
    else if a = c.1 then (a, b) :: rest
    else c :: Memory.insert rest a b

/-- `mem[a] <- b`, keeping the canonical form: a byte equal to what an unlisted address reads as is not listed. -/
def Memory.write (m : Memory) (a : Nat) (b : Byte) : Memory :=
  if b = Memory.unlisted then m.erase a else m.insert a b

/-- `MemRead(a, 4)`: big-endian, the most significant byte at the lowest address (R31). -/
def Memory.readWord (m : Memory) (a : Nat) : Word :=
  m.read a ++ m.read (a + 1) ++ m.read (a + 2) ++ m.read (a + 3)

/-- `mem[a] <- b0; mem[a+1] <- b1; …`. -/
def Memory.writeBytes (m : Memory) (a : Nat) : List Byte → Memory
  | [] => m
  | b :: rest => (m.write a b).writeBytes (a + 1) rest

/-- `MemWrite(a, 4, v)`: big-endian (R32). -/
def Memory.writeWord (m : Memory) (a : Nat) (v : Word) : Memory := m.writeBytes a (wordBytes v)

/-- `InBounds(ea, n)`: `0 ≤ ea and ea + (n-1) < MEM_SIZE`, over unbounded integers (R33, D7). -/
def State.inBounds (s : State) (ea : Int) (n : Nat) : Bool :=
  decide (0 ≤ ea) && decide (ea + ((n : Int) - 1) < s.memSize)

/-! ### The host ports (60_exceptions.md R137, R148) -/

/-- The register writes of a reply, in order. -/
def State.setRegs (s : State) : List (Reg × Word) → State
  | [] => s
  | w :: rest => (s.setReg w.1 w.2).setRegs rest

/-- The memory writes of a reply, in order. A callback writes memory bytes in `[0, MEM_SIZE)` only (R137): a pair that
names an address outside describes nothing the contract allows, and is dropped (log 20). -/
def Memory.writeCells (memSize : Nat) (m : Memory) : List Host.Cell → Memory
  | [] => m
  | c :: rest => Memory.writeCells memSize (if c.1 < memSize then m.write c.1 c.2 else m) rest

/-- The state a callback leaves: it may write registers and memory and may clear executing, and it may not set
executing or change MEM_SIZE (R137, D15). Its returned u32 is discarded (R121, D16). -/
def State.applyReply (s : State) (r : HostReply) : State :=
  { s.setRegs r.regs with
    mem := Memory.writeCells s.memSize s.mem r.mem
    executing := s.executing && !r.halt }

/-- Invoke one host port: the event goes out, and the step goes on with the state the callback returns. With no reply
left no callback is registered, and the state is as it was (R22, R137). -/
def State.callHost (s : State) (e : HostEvent) : State :=
  match s.replies with
  | [] => { s with events := s.events ++ [e] }
  | r :: rest => { s with replies := rest, events := s.events ++ [e] }.applyReply r

/-- The numeric code of an error kind, the sole payload of the error port (R130, R134, D17). -/
def ErrorKind.code : ErrorKind → Nat
  | .illegalOpcode => 0
  | .invalidMemoryAccess => 1
  | .divisionByZero => 2

/-- `raise <Kind>` (R7, R130): apply the error callback to the state at this point. It neither stops the machine nor
redirects PC by itself; nothing is saved and nothing is vectored (R140). -/
def State.raise (s : State) (k : ErrorKind) : State := s.callHost (.error k)

/-! ### Instruction fetch (20_memory.md R35) -/

/-- R35: the word at PC, when `PC + 4 < MEM_SIZE` over unbounded integers (C3, D11). Otherwise InvalidMemoryAccess is
raised and the word is zero, which is NOP. No alignment is asked (R37). -/
def State.fetch (s : State) : Word × State :=
  if s.pc.toNat + Config.instrBytes < s.memSize then (s.mem.readWord s.pc.toNat, s)
  else (0, s.raise .invalidMemoryAccess)

end Sys2Proof.Machine
end

