-- ==== Sys2Proof/Machine/Operands.lean ====
section
/-! DEFINITION. The operand forms: the register-operand check, the immediates of 30_encoding.md R54, and the one
addressing mode of 20_memory.md R34. -/

namespace Sys2Proof.Machine

/-- R16, R136 (3): every register-operand position is checked before the instruction executes, whether or not it is
read (R56, D2); a byte above 36 makes the instruction UNDEFINED, which is a fault. -/
def guardRegs (rs : List Reg) (run : Result) : Result :=
  if rs.all regOk then run else .fault .undefinedRegister

/-- imm16 as a word: zero-extended (R54). -/
def zext16 (imm16 : BitVec 16) : Word := imm16.setWidth 32

/-- imm24 as a word: zero-extended (R54). -/
def zext24 (imm24 : BitVec 24) : Word := imm24.setWidth 32

/-- cmp8, val8 or a memory byte as a word: zero-extended (R54, R94, D8, D10, D30). -/
def zext8 (b : Byte) : Word := b.setWidth 32

/-- off8: `sext_8(a3)`, -128 to 127 (R54, C7). -/
def sext8 (b : Byte) : Int := b.toInt

/-- The effective address `x[rbase] + sext_8(off8)`, an unbounded integer (R34, D7). -/
def State.ea (s : State) (rbase : Reg) (off8 : Byte) : Int := ((s.reg rbase).toNat : Int) + sext8 off8

end Sys2Proof.Machine
end

