-- ==== Sys2Proof/Machine/Flags.lean ====
section
/-! DEFINITION. The machine has no flags, condition codes or predicate registers (10_state.md R20): no instruction
records a carry, a borrow or an overflow. What stands here is what takes their place: the comparisons whose results go
to a register (TCU, TCS, SEQ) or decide a branch (BVE, BVN). -/

namespace Sys2Proof.Machine

/-- The result of a three-way compare: 1 if greater, -1 if less, 0 if equal (R79). -/
def threeWay (a b : Int) : Word := if b < a then 1 else if a < b then 0xFFFFFFFF else 0

/-- TCU: both operands unsigned (R79). -/
def compareUnsigned (a b : Word) : Word := threeWay a.toNat b.toNat

/-- TCS: both operands two's complement (R80). -/
def compareSigned (a b : Word) : Word := threeWay a.toInt b.toInt

/-- The test of BVE, BVN and SEQ: the whole word against cmp8 zero-extended (R102, R103, R116, D10). -/
def equalsImm (a : Word) (cmp8 : Byte) : Bool := decide (a = zext8 cmp8)

end Sys2Proof.Machine
end

