-- ==== Sys2Proof/Machine/ArithLogic.lean ====
section
/-! DEFINITION. 40_arith_logic.md: NOP, ADD, SUB, AND, ORR, XOR, NOT, LSH, ASH, TCU, TCS. Sources are read before the
destination is written; every instruction ends with `advance`, even when the destination is the PC slot (R15). -/

namespace Sys2Proof.Machine

/-- `x[rd] <- v; advance`. -/
def writeAdvance (rd : Reg) (v : Word) (s : State) : Result := .next (s.setReg rd v).advance

/-- LSH (R77, C5, D5): the count is two's complement; left when it is not negative, else right by its magnitude with
zero fill. The formulas over unbounded integers give 0 from magnitude 32 on. -/
def shiftLogical (v count : Word) : Word :=
  let n := count.toInt.natAbs
  if 32 ≤ n then 0 else if 0 ≤ count.toInt then v <<< n else v >>> n

/-- ASH (R78, D5): as LSH, but a right shift copies bit 31, and from magnitude 32 on leaves only copies of it. -/
def shiftArithmetic (v count : Word) : Word :=
  let n := count.toInt.natAbs
  if 0 ≤ count.toInt then (if 32 ≤ n then 0 else v <<< n)
  else if 32 ≤ n then (if v.msb then 0xFFFFFFFF else 0) else v.sshiftRight n

/-- NOP (R70): "no effect". -/
def execNop (s : State) : Result := .next s.advance

/-- ADD (R71): addition modulo 2^32. -/
def execAdd (rd rs1 rs2 : Reg) (s : State) : Result :=
  guardRegs [rd, rs1, rs2] (writeAdvance rd (s.reg rs1 + s.reg rs2) s)

/-- SUB (R72): minuend x[a2], subtrahend x[a3], modulo 2^32. -/
def execSub (rd rs1 rs2 : Reg) (s : State) : Result :=
  guardRegs [rd, rs1, rs2] (writeAdvance rd (s.reg rs1 - s.reg rs2) s)

/-- AND (R73). -/
def execAnd (rd rs1 rs2 : Reg) (s : State) : Result :=
  guardRegs [rd, rs1, rs2] (writeAdvance rd (s.reg rs1 &&& s.reg rs2) s)

/-- ORR (R74). -/
def execOrr (rd rs1 rs2 : Reg) (s : State) : Result :=
  guardRegs [rd, rs1, rs2] (writeAdvance rd (s.reg rs1 ||| s.reg rs2) s)

/-- XOR (R75, C2, D4): in isolation, without the original's fall-through into NOT. -/
def execXor (rd rs1 rs2 : Reg) (s : State) : Result :=
  guardRegs [rd, rs1, rs2] (writeAdvance rd (s.reg rs1 ^^^ s.reg rs2) s)

/-- NOT (R76). -/
def execNot (rd rs1 : Reg) (s : State) : Result :=
  guardRegs [rd, rs1] (writeAdvance rd (~~~(s.reg rs1)) s)

/-- LSH (R77). -/
def execLsh (rd rs1 rs2 : Reg) (s : State) : Result :=
  guardRegs [rd, rs1, rs2] (writeAdvance rd (shiftLogical (s.reg rs1) (s.reg rs2)) s)

/-- ASH (R78). -/
def execAsh (rd rs1 rs2 : Reg) (s : State) : Result :=
  guardRegs [rd, rs1, rs2] (writeAdvance rd (shiftArithmetic (s.reg rs1) (s.reg rs2)) s)

/-- TCU (R79). -/
def execTcu (rd rs1 rs2 : Reg) (s : State) : Result :=
  guardRegs [rd, rs1, rs2] (writeAdvance rd (compareUnsigned (s.reg rs1) (s.reg rs2)) s)

/-- TCS (R80). -/
def execTcs (rd rs1 rs2 : Reg) (s : State) : Result :=
  guardRegs [rd, rs1, rs2] (writeAdvance rd (compareSigned (s.reg rs1) (s.reg rs2)) s)

end Sys2Proof.Machine
end

