-- ==== Sys2Proof/Machine/MoveLoadStore.lean ====
section
/-! DEFINITION. 41_move_load_store.md: SET, MOV, LDW, STW, LDB, STB. -/

namespace Sys2Proof.Machine

/-- The end of a failed access (R36): InvalidMemoryAccess is raised, nothing is transferred, PC advances. -/
def failedAccess (s : State) : Result := .next (s.raise .invalidMemoryAccess).advance

/-- SET (R90): the 16-bit immediate, zero-extended. -/
def execSet (rd : Reg) (imm16 : BitVec 16) (s : State) : Result :=
  guardRegs [rd] (writeAdvance rd (zext16 imm16) s)

/-- MOV (R91). -/
def execMov (rd rs1 : Reg) (s : State) : Result :=
  guardRegs [rd, rs1] (writeAdvance rd (s.reg rs1) s)

/-- LDW (R92). -/
def execLdw (rd rbase : Reg) (off8 : Byte) (s : State) : Result :=
  guardRegs [rd, rbase]
    (if s.inBounds (s.ea rbase off8) 4 then writeAdvance rd (s.mem.readWord (s.ea rbase off8).toNat) s
     else failedAccess s)

/-- STW (R93, D8): the value stored is x[a1]. -/
def execStw (rsrc rbase : Reg) (off8 : Byte) (s : State) : Result :=
  guardRegs [rsrc, rbase]
    (if s.inBounds (s.ea rbase off8) 4 then
      .next { s with mem := s.mem.writeWord (s.ea rbase off8).toNat (s.reg rsrc) }.advance
     else failedAccess s)

/-- LDB (R94, D8): the byte is zero-extended. -/
def execLdb (rd rbase : Reg) (off8 : Byte) (s : State) : Result :=
  guardRegs [rd, rbase]
    (if s.inBounds (s.ea rbase off8) 1 then writeAdvance rd (zext8 (s.mem.read (s.ea rbase off8).toNat)) s
     else failedAccess s)

/-- STB (R95, D8): the low 8 bits of x[a1]. -/
def execStb (rsrc rbase : Reg) (off8 : Byte) (s : State) : Result :=
  guardRegs [rsrc, rbase]
    (if s.inBounds (s.ea rbase off8) 1 then
      .next { s with mem := s.mem.write (s.ea rbase off8).toNat ((s.reg rsrc).setWidth 8) }.advance
     else failedAccess s)

end Sys2Proof.Machine
end

