-- ==== Sys2Proof/Machine/Control.lean ====
section
/-! DEFINITION. 42_control_transfer.md: JMI, JMP, BVE, BVN, CAL, RET. A transfer takes effect at once, is not aligned
and is not checked when it executes (R104). -/

namespace Sys2Proof.Machine

/-- A conditional branch: to x[rtarget] when taken, else `advance` (R102, R103). -/
def branchIf (taken : Bool) (rtarget : Reg) (s : State) : Result :=
  if taken then .next (s.jump (s.reg rtarget)) else .next s.advance

/-- JMI (R100): an absolute 24-bit target. -/
def execJmi (imm24 : BitVec 24) (s : State) : Result := .next (s.jump (zext24 imm24))

/-- JMP (R101). -/
def execJmp (rtarget : Reg) (s : State) : Result := guardRegs [rtarget] (.next (s.jump (s.reg rtarget)))

/-- BVE (R102). -/
def execBve (rtarget rs1 : Reg) (cmp8 : Byte) (s : State) : Result :=
  guardRegs [rtarget, rs1] (branchIf (equalsImm (s.reg rs1) cmp8) rtarget s)

/-- BVN (R103). -/
def execBvn (rtarget rs1 : Reg) (cmp8 : Byte) (s : State) : Result :=
  guardRegs [rtarget, rs1] (branchIf (!equalsImm (s.reg rs1) cmp8) rtarget s)

/-- `LR = PC + instruction_width`, the first assignment of CAL (R105). -/
def State.link (s : State) : State := s.setReg Slot.lr (s.pc + BitVec.ofNat 32 Config.instrBytes)

/-- CAL (R105, D24): LR first, then PC from the register file that holds the new LR. -/
def execCal (rtarget : Reg) (s : State) : Result :=
  guardRegs [rtarget] (.next (s.link.jump (s.link.reg rtarget)))

/-- RET (R106, R157, D12): with LR = 0 the machine halts and PC stays; else PC = LR and LR is reset to 0. -/
def execRet (s : State) : Result :=
  if s.reg Slot.lr = 0 then .next { s with executing := false }
  else .next ((s.jump (s.reg Slot.lr)).setReg Slot.lr 0)

end Sys2Proof.Machine
end

