-- ==== Sys2Proof/Machine/MulDivExtended.lean ====
section
/-! DEFINITION. 43_muldiv_extended.md: MUL, DIV, MOD, SIA, SUP, SXT, SEQ. -/

namespace Sys2Proof.Machine

/-- The end of a division by zero (R133, D6): DivisionByZero is raised, the destination keeps its value, PC advances. -/
def failedDivision (s : State) : Result := .next (s.raise .divisionByZero).advance

/-- MUL (R110, D29): the low 32 bits of the product. -/
def execMul (rd rs1 rs2 : Reg) (s : State) : Result :=
  guardRegs [rd, rs1, rs2] (writeAdvance rd (s.reg rs1 * s.reg rs2) s)

/-- DIV (R111, D6): unsigned, truncating. -/
def execDiv (rd rs1 rs2 : Reg) (s : State) : Result :=
  guardRegs [rd, rs1, rs2]
    (if s.reg rs2 = 0 then failedDivision s else writeAdvance rd ((s.reg rs1).udiv (s.reg rs2)) s)

/-- MOD (R112, D6): the remainder of that division. -/
def execMod (rd rs1 rs2 : Reg) (s : State) : Result :=
  guardRegs [rd, rs1, rs2]
    (if s.reg rs2 = 0 then failedDivision s else writeAdvance rd ((s.reg rs1).umod (s.reg rs2)) s)

/-- SIA (R113, D30): adds val8 shifted left by sh8, kept to 32 bits; from a count of 32 on, a no-op but for PC. -/
def execSia (rd : Reg) (val8 sh8 : Byte) (s : State) : Result :=
  guardRegs [rd]
    (if sh8.toNat < 32 then writeAdvance rd (s.reg rd + (zext8 val8 <<< sh8.toNat)) s else .next s.advance)

/-- SUP (R114): the upper half from the immediate, the lower half kept. -/
def execSup (rd : Reg) (imm16 : BitVec 16) (s : State) : Result :=
  guardRegs [rd] (writeAdvance rd (imm16 ++ (s.reg rd).setWidth 16) s)

/-- `sext_n(v[n-1:0]) mod 2^32` with n = SXT_SRC_BITS (R115, D9). -/
def signExtendFrom (n : Config.SxtWidth) (v : Word) : Word := (v.setWidth n.toNat).signExtend 32

/-- SXT (R115). -/
def execSxt (rd rs1 : Reg) (s : State) : Result :=
  guardRegs [rd, rs1] (writeAdvance rd (signExtendFrom s.sxtSrcBits (s.reg rs1)) s)

/-- SEQ (R116). -/
def execSeq (rd rs1 : Reg) (cmp8 : Byte) (s : State) : Result :=
  guardRegs [rd, rs1] (writeAdvance rd (if equalsImm (s.reg rs1) cmp8 then 1 else 0) s)

end Sys2Proof.Machine
end

