-- ==== Sys2Proof/Machine/System.lean ====
section
/-! DEFINITION. 44_system.md: INT, SND, HLT, and what an illegal opcode does. -/

namespace Sys2Proof.Machine

/-- INT (R120): the interrupt callback with the 24-bit code, then `advance` on the state it left. -/
def execInt (imm24 : BitVec 24) (s : State) : Result :=
  .next (s.callHost (.interrupt (zext24 imm24))).advance

/-- SND (R121, D16): the three registers are read, the device callback runs, its result is discarded, then
`advance` on the state it left. -/
def execSnd (rdev rcmd rdata : Reg) (s : State) : Result :=
  guardRegs [rdev, rcmd, rdata]
    (.next (s.callHost (.device (s.reg rdev) (s.reg rcmd) (s.reg rdata))).advance)

/-- HLT (R122, C1): clears executing; PC is not advanced. -/
def execHlt (s : State) : Result := .next { s with executing := false }

/-- An illegal opcode (R123, R131, D25): executing is cleared, then IllegalOpcode is raised; PC is not advanced. -/
def execIllegal (s : State) : Result := .next ({ s with executing := false }.raise .illegalOpcode)

end Sys2Proof.Machine
end

