-- ==== Sys2Proof/Machine/Dispatch.lean ====
section
/-! DEFINITION. One arm per instruction: the meaning each one has. -/

namespace Sys2Proof.Machine

/-- `execute(state, instruction)` of 70_reset_and_hazards.md R156, R163. -/
def exec (i : Instr) (s : State) : Host.Outcome State Fault Refusal :=
  match i with
  | .nop _ _ _ => Sys2Proof.Machine.execNop s
  | .add rd rs1 rs2 => Sys2Proof.Machine.execAdd rd rs1 rs2 s
  | .sub rd rs1 rs2 => Sys2Proof.Machine.execSub rd rs1 rs2 s
  | .and rd rs1 rs2 => Sys2Proof.Machine.execAnd rd rs1 rs2 s
  | .orr rd rs1 rs2 => Sys2Proof.Machine.execOrr rd rs1 rs2 s
  | .xor rd rs1 rs2 => Sys2Proof.Machine.execXor rd rs1 rs2 s
  | .not rd rs1 _ => Sys2Proof.Machine.execNot rd rs1 s
  | .lsh rd rs1 rs2 => Sys2Proof.Machine.execLsh rd rs1 rs2 s
  | .ash rd rs1 rs2 => Sys2Proof.Machine.execAsh rd rs1 rs2 s
  | .tcu rd rs1 rs2 => Sys2Proof.Machine.execTcu rd rs1 rs2 s
  | .tcs rd rs1 rs2 => Sys2Proof.Machine.execTcs rd rs1 rs2 s
  | .set rd imm16 => Sys2Proof.Machine.execSet rd imm16 s
  | .mov rd rs1 _ => Sys2Proof.Machine.execMov rd rs1 s
  | .ldw rd rbase off8 => Sys2Proof.Machine.execLdw rd rbase off8 s
  | .stw rsrc rbase off8 => Sys2Proof.Machine.execStw rsrc rbase off8 s
  | .ldb rd rbase off8 => Sys2Proof.Machine.execLdb rd rbase off8 s
  | .stb rsrc rbase off8 => Sys2Proof.Machine.execStb rsrc rbase off8 s
  | .jmi imm24 => Sys2Proof.Machine.execJmi imm24 s
  | .jmp rtarget _ _ => Sys2Proof.Machine.execJmp rtarget s
  | .bve rtarget rs1 cmp8 => Sys2Proof.Machine.execBve rtarget rs1 cmp8 s
  | .bvn rtarget rs1 cmp8 => Sys2Proof.Machine.execBvn rtarget rs1 cmp8 s
  | .cal rtarget _ _ => Sys2Proof.Machine.execCal rtarget s
  | .ret _ _ _ => Sys2Proof.Machine.execRet s
  | .mul rd rs1 rs2 => Sys2Proof.Machine.execMul rd rs1 rs2 s
  | .div rd rs1 rs2 => Sys2Proof.Machine.execDiv rd rs1 rs2 s
  | .mod rd rs1 rs2 => Sys2Proof.Machine.execMod rd rs1 rs2 s
  | .sia rd val8 sh8 => Sys2Proof.Machine.execSia rd val8 sh8 s
  | .sup rd imm16 => Sys2Proof.Machine.execSup rd imm16 s
  | .sxt rd rs1 _ => Sys2Proof.Machine.execSxt rd rs1 s
  | .seq rd rs1 cmp8 => Sys2Proof.Machine.execSeq rd rs1 cmp8 s
  | .int imm24 => Sys2Proof.Machine.execInt imm24 s
  | .snd rdev rcmd rdata => Sys2Proof.Machine.execSnd rdev rcmd rdata s
  | .hlt _ _ _ => Sys2Proof.Machine.execHlt s

end Sys2Proof.Machine
end

