-- ==== Sys2Proof/Machine/Step.lean ====
section
/-! DEFINITION. One step of the machine (70_reset_and_hazards.md R156, R158), and the placing of one instruction where
the next step fetches. -/

namespace Sys2Proof.Machine

/-- fetch, decode, execute, once (R156). An opcode byte that names no instruction is executed as R123 says. In the
HALTED state a step has no effect (R158, D14). -/
def step (s : State) : Host.Outcome State Fault Refusal :=
  if s.executing then
    match decode s.fetch.1 with
    | .ok i => exec i s.fetch.2
    | .error (.illegalOpcode _) => execIllegal s.fetch.2
  else .next s

/-- `s` with the instruction word `w` (its low `nbits` bits) at PC, big-endian, and RUNNING, since a HALTED machine
fetches nothing (log 5). The next step fetches that word wherever `PC + 4 < MEM_SIZE`, as it is after reset. -/
def State.withFetchWord (s : State) (nbits w : Nat) : State :=
  { s with
    mem := s.mem.writeWord s.pc.toNat (BitVec.ofNat 32 (w % 2 ^ nbits))
    executing := true }

end Sys2Proof.Machine
end

