-- ==== Sys2Proof/Machine/Lifecycle.lean ====
section
/-! DEFINITION. The host's operations init and load (70_reset_and_hazards.md R150 to R153), which are no instructions. -/

namespace Sys2Proof.Machine

/-- init (R150): all registers and all memory zero, HALTED. The parameters and the host stay. -/
def State.init (s : State) : State :=
  { s with regs := Vector.replicate 37 0, mem := [], executing := false }

/-- load of the program `p` (R151): the bytes from address 0, PC = 0, LR = 0, SP = MEM_SIZE - 1, RUNNING. A program
of more than MEM_SIZE bytes is refused (R152, D19). -/
def State.load (s : State) (p : List Byte) : Result :=
  if p.length ≤ s.memSize then
    .next { (((s.setReg Slot.pc 0).setReg Slot.lr 0).setReg Slot.sp (BitVec.ofNat 32 (s.memSize - 1))) with
      mem := s.mem.writeBytes 0 p
      executing := true }
  else .refused .programTooLong

end Sys2Proof.Machine
end

