-- ==== Sys2Proof/Safety.lean ====
section
/-! DEFINITION. The terms claims are stated in: the invariant of the state, what it means for an instruction to leave
everything else unchanged, and what one host callback may do. None of them mentions a meaning of an instruction. -/

namespace Sys2Proof.Machine

/-- What every reachable state keeps: memory is in canonical form, holds no byte at or above MEM_SIZE, and MEM_SIZE
is a capacity the spec allows (R5, R21, D18). -/
structure State.Inv (s : State) : Prop where
  memWf : s.mem.wf
  memBelow : ∀ c ∈ s.mem, c.1 < s.memSize
  sizePos : 1 ≤ s.memSize
  sizeMax : s.memSize ≤ Config.maxMemSize

/-- A fetch at PC reads memory: `PC + 4 < MEM_SIZE` over unbounded integers (R35). -/
def State.FetchOk (s : State) : Prop := s.pc.toNat + 4 < s.memSize

/-- The word at PC. -/
def State.wordAtPc (s : State) : Word := s.mem.readWord s.pc.toNat

/-- No byte of memory reads differently. -/
def MemSame (s t : State) : Prop := ∀ a, t.mem.read a = s.mem.read a

/-- Every register reads as before, but for those listed. -/
def RegsSameBut (rs : List Reg) (s t : State) : Prop := ∀ q, regOk q = true → q ∉ rs → t.reg q = s.reg q

/-- Nothing beside registers and memory changed: still RUNNING or still HALTED, same parameters, no host port
invoked. -/
structure Quiet (s t : State) : Prop where
  executing : t.executing = s.executing
  memSize : t.memSize = s.memSize
  sxtSrcBits : t.sxtSrcBits = s.sxtSrcBits
  replies : t.replies = s.replies
  events : t.events = s.events

/-- `t` is `s` with PC moved on by 4 modulo 2^32 and nothing else changed. -/
structure AdvancesOnly (s t : State) : Prop where
  quiet : Quiet s t
  mem : MemSame s t
  regs : RegsSameBut [Slot.pc] s t
  pc : t.pc.toNat = (s.pc.toNat + 4) % 2 ^ 32

/-- `t` is `s` after the register file slot `rd` was written with `v` and PC then moved on by 4: where `rd` is the PC
slot, control continues at `v + 4` (R15). Nothing else changed. -/
structure WritesReg (rd : Reg) (v : Word) (s t : State) : Prop where
  quiet : Quiet s t
  mem : MemSame s t
  regs : RegsSameBut [rd, Slot.pc] s t
  value : rd ≠ Slot.pc → t.reg rd = v ∧ t.pc.toNat = (s.pc.toNat + 4) % 2 ^ 32
  valuePc : rd = Slot.pc → t.pc.toNat = (v.toNat + 4) % 2 ^ 32

/-- `t` is `s` with PC at `target` and nothing else changed. -/
structure JumpsTo (target : Word) (s t : State) : Prop where
  quiet : Quiet s t
  mem : MemSame s t
  regs : RegsSameBut [Slot.pc] s t
  pc : t.pc = target

/-- `t` is `s` with the bytes `bs` stored from address `a` up and PC moved on by 4; every other byte and every other
register is unchanged. -/
structure Stores (a : Int) (bs : List Byte) (s t : State) : Prop where
  quiet : Quiet s t
  regs : RegsSameBut [Slot.pc] s t
  pc : t.pc.toNat = (s.pc.toNat + 4) % 2 ^ 32
  stored : ∀ (k : Nat) (b : Byte), bs[k]? = some b → t.mem.read (a + k).toNat = b
  others : ∀ c : Nat, ((c : Int) < a ∨ a + bs.length ≤ (c : Int)) → t.mem.read c = s.mem.read c

/-- `t` is `s` HALTED, PC and everything else as it was. -/
structure HaltsHere (s t : State) : Prop where
  executing : t.executing = false
  mem : MemSame s t
  regs : RegsSameBut [] s t
  memSize : t.memSize = s.memSize
  sxtSrcBits : t.sxtSrcBits = s.sxtSrcBits
  replies : t.replies = s.replies
  events : t.events = s.events

/-- The value of the last pair for `k` in a list of writes, if there is one. -/
def lastWrite {α β : Type} [DecidableEq α] : List (α × β) → α → Option β
  | [], _ => none
  | w :: rest, k => (lastWrite rest k).or (if w.1 = k then some w.2 else none)

/-- `u` is `s` after one invocation of a host port that sent `e`, whatever the host does within its contract (R137,
D15): the event went out once; an absent callback changes nothing else; a present one wrote the registers and the
bytes below MEM_SIZE that its reply names and may have cleared executing, never set it. -/
structure HostActs (e : HostEvent) (s u : State) : Prop where
  events : u.events = s.events ++ [e]
  memSize : u.memSize = s.memSize
  sxtSrcBits : u.sxtSrcBits = s.sxtSrcBits
  absent : s.replies = [] →
    u.replies = [] ∧ u.executing = s.executing ∧ u.mem = s.mem ∧ ∀ q, regOk q = true → u.reg q = s.reg q
  present : ∀ r rest, s.replies = r :: rest →
    u.replies = rest ∧ u.executing = (s.executing && !r.halt) ∧
    (∀ q, regOk q = true → u.reg q = (lastWrite r.regs q).getD (s.reg q)) ∧
    ∀ a, u.mem.read a = if a < s.memSize then (lastWrite r.mem a).getD (s.mem.read a) else s.mem.read a

/-- `InBounds(ea, n)` of R33, spelled out over unbounded integers. -/
def InBounds (memSize : Nat) (ea : Int) (n : Int) : Prop := 0 ≤ ea ∧ ea + (n - 1) < memSize

/-- The effective address of R34 as a formula: the base register as an unsigned number plus the signed offset. -/
def effAddr (s : State) (rbase : Reg) (off8 : Byte) : Int :=
  ((s.reg rbase).toNat : Int) + (if off8.toNat ≤ 127 then (off8.toNat : Int) else (off8.toNat : Int) - 256)

/-- The word with opcode byte `op` and argument bytes `a1 a2 a3` decodes to `i` (R50, R55). -/
def Encodes (op a1 a2 a3 : Byte) (i : Instr) : Prop := decode (op ++ a1 ++ a2 ++ a3 : Word) = .ok i

/-- The register an instruction names as its destination, the rd of R56. -/
def destReg : Instr → Option Reg
  | .add rd _ _ | .sub rd _ _ | .and rd _ _ | .orr rd _ _ | .xor rd _ _ | .lsh rd _ _ | .ash rd _ _
  | .tcu rd _ _ | .tcs rd _ _ | .mul rd _ _ | .div rd _ _ | .mod rd _ _ => some rd
  | .not rd _ _ | .mov rd _ _ | .sxt rd _ _ | .ldw rd _ _ | .ldb rd _ _ | .seq rd _ _ => some rd
  | .set rd _ | .sup rd _ | .sia rd _ _ => some rd
  | .nop _ _ _ | .stw _ _ _ | .stb _ _ _ | .jmi _ | .jmp _ _ _ | .bve _ _ _ | .bvn _ _ _ | .cal _ _ _
  | .ret _ _ _ | .int _ | .snd _ _ _ | .hlt _ _ _ => none

/-- The instruction at PC halts the machine by itself: an illegal opcode, HLT, or RET with LR = 0. -/
def HaltsByItself (s : State) : Prop :=
  s.FetchOk ∧ ((∃ e, decode s.wordAtPc = .error e) ∨ (∃ x1 x2 x3, decode s.wordAtPc = .ok (.hlt x1 x2 x3)) ∨
    ((∃ x1 x2 x3, decode s.wordAtPc = .ok (.ret x1 x2 x3)) ∧ s.reg Slot.lr = 0))

/-- A callback ran between `s` and `t` and chose to halt. -/
def CallbackCleared (s t : State) : Prop :=
  t.events ≠ s.events ∧ ∃ r rest, s.replies = r :: rest ∧ r.halt = true

end Sys2Proof.Machine
end

