-- ==== Sys2Proof/Certificates/Slice0/Obligations.lean ====
section
/-! DEFINITION. The statements for the provers. Each docstring names the rule or decision of spec/ it formalises; a
register operand is a byte, and `regOk` says it names a slot (R16). A statement that gives an opcode byte rests on
92_eei_decisions.md D1 for that clause (log 8). -/

open Sys2Proof Sys2Proof.Machine

/-! ### Encoding (30_encoding.md) -/

/-- R51: the four byte lanes, most significant byte first. -/
def Obligations.LanesSplitTheWord : Prop :=
  ∀ w : Word,
    (lanes w).op.toNat = w.toNat / 2 ^ 24 ∧ (lanes w).a1.toNat = w.toNat / 2 ^ 16 % 2 ^ 8 ∧
    (lanes w).a2.toNat = w.toNat / 2 ^ 8 % 2 ^ 8 ∧ (lanes w).a3.toNat = w.toNat % 2 ^ 8

/-- R52: the encoding formula and the round trip, both ways. -/
def Obligations.LanesRoundTrip : Prop :=
  (∀ l : Lanes,
    l.word.toNat = l.op.toNat * 2 ^ 24 + l.a1.toNat * 2 ^ 16 + l.a2.toNat * 2 ^ 8 + l.a3.toNat) ∧
  (∀ w : Word, (lanes w).word = w) ∧ ∀ l : Lanes, lanes l.word = l

/-- Decode and encode agree, both ways: the word of every instruction decodes to it, and every word that decodes to an
instruction is that instruction's word, ignored bytes included (log 9). -/
def Obligations.DecodeAndEncodeAgree : Prop :=
  (∀ i : Instr, decode (encode i) = .ok i) ∧ ∀ (w : Word) (i : Instr), decode w = .ok i → encode i = w

/-- R57 with the opcode map of D1: a word names no instruction exactly when its opcode byte is one of the listed ones,
whatever its argument bytes. -/
def Obligations.IllegalOpcodesAreTheListedBytes : Prop :=
  ∀ w : Word, decode w = .error (.illegalOpcode (lanes w).op) ↔
    (let o := w.toNat / 2 ^ 24
     (0x11 ≤ o ∧ o ≤ 0x1F) ∨ o = 0x22 ∨ o = 0x23 ∨ (0x26 ≤ o ∧ o ≤ 0x29) ∨ (0x2C ≤ o ∧ o ≤ 0x2F) ∨
     (0x33 ≤ o ∧ o ≤ 0x3F) ∨ (0x44 ≤ o ∧ o ≤ 0xEF) ∨ (0xF1 ≤ o ∧ o ≤ 0xFC) ∨ o = 0xFE)

/-- Words written out from R55 and the examples of the instruction rules, one of each family (D1). -/
def Obligations.KnownWordsDecode : Prop :=
  decode 0x01020001 = .ok (.add 2 0 1) ∧ decode 0x0B01EFBE = .ok (.set 1 0xBEEF) ∧
  decode 0x0D0102FC = .ok (.ldw 1 2 0xFC) ∧ decode 0x20EFCDAB = .ok (.jmi 0xABCDEF) ∧
  decode 0x24020100 = .ok (.bve 2 1 0) ∧ decode 0x4001FF1C = .ok (.sia 1 0xFF 28) ∧
  decode 0xF0341200 = .ok (.int 0x1234) ∧ decode 0xFFABCDEF = .ok (.hlt 0xAB 0xCD 0xEF) ∧
  decode 0x15FFFFFF = .error (.illegalOpcode 0x15)

/-! ### Memory (20_memory.md) -/

/-- R31: MemRead of one byte and of a word, big-endian. -/
def Obligations.MemReadIsBigEndian : Prop :=
  ∀ (m : Memory) (a : Nat),
    (zext8 (m.read a)).toNat = (m.read a).toNat ∧
    (m.readWord a).toNat =
      (m.read a).toNat * 2 ^ 24 + (m.read (a + 1)).toNat * 2 ^ 16 + (m.read (a + 2)).toNat * 2 ^ 8 +
        (m.read (a + 3)).toNat

/-- R32: MemWrite of one byte and of a word, big-endian; no other byte changes. -/
def Obligations.MemWriteIsBigEndian : Prop :=
  ∀ (m : Memory) (a : Nat) (v : Word),
    ((m.write a (v.setWidth 8)).read a).toNat = v.toNat % 2 ^ 8 ∧
    (∀ c, c ≠ a → (m.write a (v.setWidth 8)).read c = m.read c) ∧
    ((m.writeWord a v).read a).toNat = v.toNat / 2 ^ 24 ∧
    ((m.writeWord a v).read (a + 1)).toNat = v.toNat / 2 ^ 16 % 2 ^ 8 ∧
    ((m.writeWord a v).read (a + 2)).toNat = v.toNat / 2 ^ 8 % 2 ^ 8 ∧
    ((m.writeWord a v).read (a + 3)).toNat = v.toNat % 2 ^ 8 ∧
    ∀ c, (c < a ∨ a + 4 ≤ c) → (m.writeWord a v).read c = m.read c

/-- 20_memory.md section 5, the mixed-width view (a derived rule of the spec): byte reads after a word write, and the
word read after four byte writes. -/
def Obligations.MixedWidthsSeeBigEndian : Prop :=
  ∀ (m : Memory) (a : Nat) (v : Word) (b0 b1 b2 b3 : Byte),
    (∀ k : Nat, k < 4 → (m.writeWord a v).read (a + k) = v.extractLsb' (24 - 8 * k) 8) ∧
    (m.writeWord a v).readWord a = v ∧
    ((((m.write a b0).write (a + 1) b1).write (a + 2) b2).write (a + 3) b3).readWord a = b0 ++ b1 ++ b2 ++ b3

/-! ### Arithmetic and logic (40_arith_logic.md) -/

/-- R70. -/
def Obligations.NopOnlyAdvances : Prop :=
  ∀ (x1 x2 x3 : Byte) (s : State), Encodes 0x00 x1 x2 x3 (.nop x1 x2 x3) ∧
    ∃ t, exec (.nop x1 x2 x3) s = .next t ∧ AdvancesOnly s t

/-- R71, R72: addition and subtraction modulo 2^32, nothing else recorded. -/
def Obligations.AddAndSubWrap : Prop :=
  ∀ (rd rs1 rs2 : Reg) (s : State), regOk rd = true → regOk rs1 = true → regOk rs2 = true →
    (Encodes 0x01 rd rs1 rs2 (.add rd rs1 rs2) ∧
      ∃ t v, exec (.add rd rs1 rs2) s = .next t ∧ WritesReg rd v s t ∧
        v.toNat = ((s.reg rs1).toNat + (s.reg rs2).toNat) % 2 ^ 32) ∧
    (Encodes 0x02 rd rs1 rs2 (.sub rd rs1 rs2) ∧
      ∃ t v, exec (.sub rd rs1 rs2) s = .next t ∧ WritesReg rd v s t ∧
        (v.toNat : Int) = (((s.reg rs1).toNat : Int) - ((s.reg rs2).toNat : Int)) % 2 ^ 32)

/-- R73, R74, R76: bit by bit. -/
def Obligations.AndOrrNotAreBitwise : Prop :=
  ∀ (rd rs1 rs2 : Reg) (x3 : Byte) (s : State), regOk rd = true → regOk rs1 = true → regOk rs2 = true →
    (Encodes 0x03 rd rs1 rs2 (.and rd rs1 rs2) ∧
      ∃ t v, exec (.and rd rs1 rs2) s = .next t ∧ WritesReg rd v s t ∧
        ∀ k < 32, v.getLsbD k = ((s.reg rs1).getLsbD k && (s.reg rs2).getLsbD k)) ∧
    (Encodes 0x04 rd rs1 rs2 (.orr rd rs1 rs2) ∧
      ∃ t v, exec (.orr rd rs1 rs2) s = .next t ∧ WritesReg rd v s t ∧
        ∀ k < 32, v.getLsbD k = ((s.reg rs1).getLsbD k || (s.reg rs2).getLsbD k)) ∧
    (Encodes 0x06 rd rs1 x3 (.not rd rs1 x3) ∧
      ∃ t v, exec (.not rd rs1 x3) s = .next t ∧ WritesReg rd v s t ∧
        ∀ k < 32, v.getLsbD k = !(s.reg rs1).getLsbD k)

/-- D4 (log 10): XOR is the plain exclusive or, not the original's fall-through into NOT. -/
def Obligations.XorStandsAlone : Prop :=
  ∀ (rd rs1 rs2 : Reg) (s : State), regOk rd = true → regOk rs1 = true → regOk rs2 = true →
    Encodes 0x05 rd rs1 rs2 (.xor rd rs1 rs2) ∧
    ∃ t v, exec (.xor rd rs1 rs2) s = .next t ∧ WritesReg rd v s t ∧
      ∀ k < 32, v.getLsbD k = Bool.xor ((s.reg rs1).getLsbD k) ((s.reg rs2).getLsbD k)

/-- D5 (log 11): the unbounded-integer formulas of LSH, for every signed count. -/
def Obligations.LogicalShiftFollowsTheFormula : Prop :=
  ∀ (rd rs1 rs2 : Reg) (s : State), regOk rd = true → regOk rs1 = true → regOk rs2 = true →
    Encodes 0x07 rd rs1 rs2 (.lsh rd rs1 rs2) ∧
    ∃ t v, exec (.lsh rd rs1 rs2) s = .next t ∧ WritesReg rd v s t ∧
      (0 ≤ (s.reg rs2).toInt → v.toNat = (s.reg rs1).toNat * 2 ^ (s.reg rs2).toInt.toNat % 2 ^ 32) ∧
      ((s.reg rs2).toInt < 0 → v.toNat = (s.reg rs1).toNat / 2 ^ (-(s.reg rs2).toInt).toNat)

/-- D5 (log 11): the unbounded-integer formulas of ASH, for every signed count; the division rounds toward minus
infinity. -/
def Obligations.ArithmeticShiftFollowsTheFormula : Prop :=
  ∀ (rd rs1 rs2 : Reg) (s : State), regOk rd = true → regOk rs1 = true → regOk rs2 = true →
    Encodes 0x08 rd rs1 rs2 (.ash rd rs1 rs2) ∧
    ∃ t v, exec (.ash rd rs1 rs2) s = .next t ∧ WritesReg rd v s t ∧
      (0 ≤ (s.reg rs2).toInt →
        (v.toNat : Int) = (s.reg rs1).toInt * 2 ^ (s.reg rs2).toInt.toNat % 2 ^ 32) ∧
      ((s.reg rs2).toInt < 0 →
        (v.toNat : Int) = ((s.reg rs1).toInt.fdiv (2 ^ (-(s.reg rs2).toInt).toNat)) % 2 ^ 32)

/-- R79, R80: 1 if greater, -1 if less, 0 if equal, unsigned (TCU) and signed (TCS). -/
def Obligations.ThreeWayCompares : Prop :=
  ∀ (rd rs1 rs2 : Reg) (s : State), regOk rd = true → regOk rs1 = true → regOk rs2 = true →
    (Encodes 0x09 rd rs1 rs2 (.tcu rd rs1 rs2) ∧
      ∃ t v, exec (.tcu rd rs1 rs2) s = .next t ∧ WritesReg rd v s t ∧
        ((s.reg rs1).toNat > (s.reg rs2).toNat → v.toNat = 1) ∧
        ((s.reg rs1).toNat < (s.reg rs2).toNat → v.toNat = 2 ^ 32 - 1) ∧
        ((s.reg rs1).toNat = (s.reg rs2).toNat → v.toNat = 0)) ∧
    (Encodes 0x0A rd rs1 rs2 (.tcs rd rs1 rs2) ∧
      ∃ t v, exec (.tcs rd rs1 rs2) s = .next t ∧ WritesReg rd v s t ∧
        ((s.reg rs1).toInt > (s.reg rs2).toInt → v.toNat = 1) ∧
        ((s.reg rs1).toInt < (s.reg rs2).toInt → v.toNat = 2 ^ 32 - 1) ∧
        ((s.reg rs1).toInt = (s.reg rs2).toInt → v.toNat = 0))

/-! ### Immediate, move, load, store (41_move_load_store.md, SUP of 43_muldiv_extended.md) -/

/-- R90, R91, R114: SET zero-extends imm16 (a2 the low byte), MOV copies, SUP replaces the upper half. -/
def Obligations.SetMovSup : Prop :=
  ∀ (rd rs1 : Reg) (a2 a3 x3 : Byte) (imm16 : BitVec 16) (s : State), regOk rd = true → regOk rs1 = true →
    imm16.toNat = a2.toNat + a3.toNat * 2 ^ 8 →
    (Encodes 0x0B rd a2 a3 (.set rd imm16) ∧
      ∃ t v, exec (.set rd imm16) s = .next t ∧ WritesReg rd v s t ∧ v.toNat = imm16.toNat) ∧
    (Encodes 0x0C rd rs1 x3 (.mov rd rs1 x3) ∧
      ∃ t v, exec (.mov rd rs1 x3) s = .next t ∧ WritesReg rd v s t ∧ v = s.reg rs1) ∧
    (Encodes 0x41 rd a2 a3 (.sup rd imm16) ∧
      ∃ t v, exec (.sup rd imm16) s = .next t ∧ WritesReg rd v s t ∧
        v.toNat = imm16.toNat * 2 ^ 16 + (s.reg rd).toNat % 2 ^ 16)

/-- An in-bounds load (address arithmetic D7, log 13; LDB zero-extends D8, log 14): the destination reads the bytes at
the effective address, memory is unchanged. -/
def Obligations.LoadsInBounds : Prop :=
  ∀ (rd rbase : Reg) (off8 : Byte) (s : State), regOk rd = true → regOk rbase = true →
    Encodes 0x0D rd rbase off8 (.ldw rd rbase off8) ∧ Encodes 0x0F rd rbase off8 (.ldb rd rbase off8) ∧
    (InBounds s.memSize (effAddr s rbase off8) 4 →
      ∃ t v, exec (.ldw rd rbase off8) s = .next t ∧ WritesReg rd v s t ∧
        v.toNat = (s.mem.read (effAddr s rbase off8).toNat).toNat * 2 ^ 24 +
          (s.mem.read (effAddr s rbase off8 + 1).toNat).toNat * 2 ^ 16 +
          (s.mem.read (effAddr s rbase off8 + 2).toNat).toNat * 2 ^ 8 +
          (s.mem.read (effAddr s rbase off8 + 3).toNat).toNat) ∧
    (InBounds s.memSize (effAddr s rbase off8) 1 →
      ∃ t v, exec (.ldb rd rbase off8) s = .next t ∧ WritesReg rd v s t ∧
        v.toNat = (s.mem.read (effAddr s rbase off8).toNat).toNat)

/-- An in-bounds store (address arithmetic D7, log 13; the data register and STB's low byte D8, log 14): the bytes of
x[a1] stand at the effective address, every other byte and every register but PC is unchanged. -/
def Obligations.StoresInBounds : Prop :=
  ∀ (rsrc rbase : Reg) (off8 : Byte) (s : State), regOk rsrc = true → regOk rbase = true →
    Encodes 0x0E rsrc rbase off8 (.stw rsrc rbase off8) ∧ Encodes 0x10 rsrc rbase off8 (.stb rsrc rbase off8) ∧
    (InBounds s.memSize (effAddr s rbase off8) 4 →
      ∃ t, exec (.stw rsrc rbase off8) s = .next t ∧
        Stores (effAddr s rbase off8)
          [(s.reg rsrc).extractLsb' 24 8, (s.reg rsrc).extractLsb' 16 8, (s.reg rsrc).extractLsb' 8 8,
           (s.reg rsrc).extractLsb' 0 8] s t) ∧
    (InBounds s.memSize (effAddr s rbase off8) 1 →
      ∃ t, exec (.stb rsrc rbase off8) s = .next t ∧
        Stores (effAddr s rbase off8) [(s.reg rsrc).extractLsb' 0 8] s t)

/-- R36: an access out of bounds transfers nothing, reports InvalidMemoryAccess once, does not halt by itself, and PC
advances from where the callback left it. -/
def Obligations.FailedAccessIsSkippedAndReported : Prop :=
  ∀ (r rbase : Reg) (off8 : Byte) (s : State), regOk r = true → regOk rbase = true →
    (¬ InBounds s.memSize (effAddr s rbase off8) 4 → ∀ i : Instr, i = .ldw r rbase off8 ∨ i = .stw r rbase off8 →
      ∃ u t, exec i s = .next t ∧ HostActs (.error .invalidMemoryAccess) s u ∧ AdvancesOnly u t) ∧
    (¬ InBounds s.memSize (effAddr s rbase off8) 1 → ∀ i : Instr, i = .ldb r rbase off8 ∨ i = .stb r rbase off8 →
      ∃ u t, exec i s = .next t ∧ HostActs (.error .invalidMemoryAccess) s u ∧ AdvancesOnly u t)

/-- 20_memory.md section 8 (a derived rule of the spec): a word stored over the next instruction is the word the next
fetch reads. -/
def Obligations.StoredWordIsTheNextFetched : Prop :=
  ∀ (rsrc rbase : Reg) (off8 : Byte) (s : State), regOk rsrc = true → regOk rbase = true →
    s.pc.toNat + 8 < s.memSize → s.memSize ≤ Config.maxMemSize →
    effAddr s rbase off8 = (s.pc.toNat : Int) + 4 →
    ∃ t, exec (.stw rsrc rbase off8) s = .next t ∧ t.FetchOk ∧ t.fetch = (s.reg rsrc, t)

/-! ### Control transfer (42_control_transfer.md) -/

/-- R100, R101: unconditional jumps; imm24 takes its low byte from a1. -/
def Obligations.UnconditionalJumps : Prop :=
  ∀ (rtarget : Reg) (a1 a2 a3 x2 x3 : Byte) (imm24 : BitVec 24) (s : State), regOk rtarget = true →
    imm24.toNat = a1.toNat + a2.toNat * 2 ^ 8 + a3.toNat * 2 ^ 16 →
    (Encodes 0x20 a1 a2 a3 (.jmi imm24) ∧
      ∃ t v, exec (.jmi imm24) s = .next t ∧ JumpsTo v s t ∧ v.toNat = imm24.toNat) ∧
    (Encodes 0x21 rtarget x2 x3 (.jmp rtarget x2 x3) ∧
      ∃ t, exec (.jmp rtarget x2 x3) s = .next t ∧ JumpsTo (s.reg rtarget) s t)

/-- D10 (log 15): BVE and BVN test the whole register against a3 zero-extended. -/
def Obligations.ConditionalBranches : Prop :=
  ∀ (rtarget rs1 : Reg) (cmp8 : Byte) (s : State), regOk rtarget = true → regOk rs1 = true →
    (Encodes 0x24 rtarget rs1 cmp8 (.bve rtarget rs1 cmp8) ∧
      ∃ t, exec (.bve rtarget rs1 cmp8) s = .next t ∧
        ((s.reg rs1).toNat = cmp8.toNat → JumpsTo (s.reg rtarget) s t) ∧
        ((s.reg rs1).toNat ≠ cmp8.toNat → AdvancesOnly s t)) ∧
    (Encodes 0x25 rtarget rs1 cmp8 (.bvn rtarget rs1 cmp8) ∧
      ∃ t, exec (.bvn rtarget rs1 cmp8) s = .next t ∧
        ((s.reg rs1).toNat ≠ cmp8.toNat → JumpsTo (s.reg rtarget) s t) ∧
        ((s.reg rs1).toNat = cmp8.toNat → AdvancesOnly s t))

/-- CAL: LR = PC + 4, then PC = x[a1]; by D24 (log 25) the target is read after LR is written, so that `CAL lr` goes to
PC + 4. -/
def Obligations.CallLinksThenJumps : Prop :=
  ∀ (rtarget : Reg) (x2 x3 : Byte) (s : State), regOk rtarget = true →
    Encodes 0x2A rtarget x2 x3 (.cal rtarget x2 x3) ∧
    ∃ t, exec (.cal rtarget x2 x3) s = .next t ∧ Quiet s t ∧ MemSame s t ∧
      RegsSameBut [Slot.pc, Slot.lr] s t ∧ (t.reg Slot.lr).toNat = (s.pc.toNat + 4) % 2 ^ 32 ∧
      (rtarget ≠ Slot.lr → t.pc = s.reg rtarget) ∧ (rtarget = Slot.lr → t.pc = t.reg Slot.lr)

/-- RET: with LR = 0 the machine halts, PC kept (D12, log 17); with LR not 0 it goes to LR and LR becomes 0. -/
def Obligations.ReturnJumpsOrHalts : Prop :=
  ∀ (x1 x2 x3 : Byte) (s : State), Encodes 0x2B x1 x2 x3 (.ret x1 x2 x3) ∧
    ∃ t, exec (.ret x1 x2 x3) s = .next t ∧
      (s.reg Slot.lr = 0 → HaltsHere s t) ∧
      (s.reg Slot.lr ≠ 0 → Quiet s t ∧ MemSame s t ∧ RegsSameBut [Slot.pc, Slot.lr] s t ∧
        t.pc = s.reg Slot.lr ∧ t.reg Slot.lr = 0)

/-- "CAL sets LR to PC+4 before jumping; a subsequent RET returns exactly to that address" (42_control_transfer.md):
whatever ran between, if LR still holds what CAL left there. The one link value that reads as "no caller" is 0. -/
def Obligations.ReturnComesBackBehindTheCall : Prop :=
  ∀ (rtarget : Reg) (x2 x3 y1 y2 y3 : Byte) (s : State), regOk rtarget = true →
    s.pc.toNat + 4 < 2 ^ 32 →
    ∃ t, exec (.cal rtarget x2 x3) s = .next t ∧
      ∀ u : State, u.reg Slot.lr = t.reg Slot.lr →
        ∃ w, exec (.ret y1 y2 y3) u = .next w ∧ w.pc.toNat = s.pc.toNat + 4 ∧ w.reg Slot.lr = 0 ∧
          w.executing = u.executing

/-! ### Multiply, divide, extended (43_muldiv_extended.md) -/

/-- D29 (log 29): the low 32 bits of the product. -/
def Obligations.MultiplyKeepsTheLowHalf : Prop :=
  ∀ (rd rs1 rs2 : Reg) (s : State), regOk rd = true → regOk rs1 = true → regOk rs2 = true →
    Encodes 0x30 rd rs1 rs2 (.mul rd rs1 rs2) ∧
    ∃ t v, exec (.mul rd rs1 rs2) s = .next t ∧ WritesReg rd v s t ∧
      v.toNat = (s.reg rs1).toNat * (s.reg rs2).toNat % 2 ^ 32

/-- D6 (log 12): with a divisor that is not 0, DIV gives the unsigned quotient and MOD its remainder, and dividend =
quotient × divisor + remainder. -/
def Obligations.DivideAndRemainder : Prop :=
  ∀ (rd rs1 rs2 : Reg) (s : State), regOk rd = true → regOk rs1 = true → regOk rs2 = true →
    s.reg rs2 ≠ 0 →
    Encodes 0x31 rd rs1 rs2 (.div rd rs1 rs2) ∧ Encodes 0x32 rd rs1 rs2 (.mod rd rs1 rs2) ∧
    ∃ t q t' r, exec (.div rd rs1 rs2) s = .next t ∧ WritesReg rd q s t ∧
      exec (.mod rd rs1 rs2) s = .next t' ∧ WritesReg rd r s t' ∧
      (s.reg rs1).toNat = q.toNat * (s.reg rs2).toNat + r.toNat ∧ r.toNat < (s.reg rs2).toNat

/-- D6 (log 12): with divisor 0, DIV and MOD report DivisionByZero once, leave the destination alone, do not halt by
themselves, and PC advances. -/
def Obligations.DivisionByZeroIsReported : Prop :=
  ∀ (rd rs1 rs2 : Reg) (s : State), regOk rd = true → regOk rs1 = true → regOk rs2 = true →
    s.reg rs2 = 0 → ∀ i : Instr, i = .div rd rs1 rs2 ∨ i = .mod rd rs1 rs2 →
      ∃ u t, exec i s = .next t ∧ HostActs (.error .divisionByZero) s u ∧ AdvancesOnly u t

/-- D30 (log 29): SIA adds a2 shifted left by a3, kept to 32 bits, below a count of 32; from 32 on it only advances. -/
def Obligations.ShiftImmediateAdd : Prop :=
  ∀ (rd : Reg) (val8 sh8 : Byte) (s : State), regOk rd = true →
    Encodes 0x40 rd val8 sh8 (.sia rd val8 sh8) ∧
    (sh8.toNat < 32 → ∃ t v, exec (.sia rd val8 sh8) s = .next t ∧ WritesReg rd v s t ∧
      v.toNat = ((s.reg rd).toNat + val8.toNat * 2 ^ sh8.toNat % 2 ^ 32) % 2 ^ 32) ∧
    (32 ≤ sh8.toNat → ∃ t, exec (.sia rd val8 sh8) s = .next t ∧ AdvancesOnly s t)

/-- D9 (log 4): SXT keeps the low SXT_SRC_BITS bits and copies the highest of them upward, whichever of 8, 16, 32 the
machine has. `Int.bmod x (2^n)` is the two's complement reading of the low n bits of x. -/
def Obligations.SignExtendFromTheParameter : Prop :=
  ∀ (rd rs1 : Reg) (x3 : Byte) (s : State), regOk rd = true → regOk rs1 = true →
    Encodes 0x42 rd rs1 x3 (.sxt rd rs1 x3) ∧
    ∃ t v, exec (.sxt rd rs1 x3) s = .next t ∧ WritesReg rd v s t ∧
      v.toInt = Int.bmod (s.reg rs1).toNat (2 ^ s.sxtSrcBits.toNat)

/-- D10 (log 15): SEQ gives 1 or 0 by the comparison of BVE. -/
def Obligations.SetIfEqual : Prop :=
  ∀ (rd rs1 : Reg) (cmp8 : Byte) (s : State), regOk rd = true → regOk rs1 = true →
    Encodes 0x43 rd rs1 cmp8 (.seq rd rs1 cmp8) ∧
    ∃ t v, exec (.seq rd rs1 cmp8) s = .next t ∧ WritesReg rd v s t ∧
      ((s.reg rs1).toNat = cmp8.toNat → v.toNat = 1) ∧ ((s.reg rs1).toNat ≠ cmp8.toNat → v.toNat = 0)

/-! ### System instructions and the host (44_system.md, 60_exceptions.md) -/

/-- R120: the interrupt callback gets the 24-bit code zero-extended, once; then PC advances from where it left it. -/
def Obligations.IntInvokesTheInterruptCallback : Prop :=
  ∀ (a1 a2 a3 : Byte) (imm24 : BitVec 24) (s : State),
    imm24.toNat = a1.toNat + a2.toNat * 2 ^ 8 + a3.toNat * 2 ^ 16 →
    Encodes 0xF0 a1 a2 a3 (.int imm24) ∧
    ∃ code u t, code.toNat = imm24.toNat ∧ exec (.int imm24) s = .next t ∧ HostActs (.interrupt code) s u ∧
      AdvancesOnly u t

/-- SND: the device callback gets the three registers as they were before it; what it returns reaches no register
(D16, log 21); then PC advances from where it left it. -/
def Obligations.SndInvokesTheDeviceCallback : Prop :=
  ∀ (rdev rcmd rdata : Reg) (s : State), regOk rdev = true → regOk rcmd = true → regOk rdata = true →
    Encodes 0xFD rdev rcmd rdata (.snd rdev rcmd rdata) ∧
    (∃ u t, exec (.snd rdev rcmd rdata) s = .next t ∧
      HostActs (.device (s.reg rdev) (s.reg rcmd) (s.reg rdata)) s u ∧ AdvancesOnly u t) ∧
    ∀ (r : HostReply) (rest : List HostReply) (x : Word),
      exec (.snd rdev rcmd rdata) { s with replies := r :: rest } =
        exec (.snd rdev rcmd rdata) { s with replies := { r with ret := x } :: rest }

/-- R122: HLT clears executing, invokes no callback and leaves PC at its own address. -/
def Obligations.HltHaltsHere : Prop :=
  ∀ (x1 x2 x3 : Byte) (s : State), Encodes 0xFF x1 x2 x3 (.hlt x1 x2 x3) ∧
    ∃ t, exec (.hlt x1 x2 x3) s = .next t ∧ HaltsHere s t

/-- R131: a fetched word that names no instruction: executing is cleared, the error callback is applied once to that
state, the machine is HALTED whatever the callback does, and the core changes no register, PC included, and no byte. -/
def Obligations.IllegalOpcodeHalts : Prop :=
  ∀ (s : State) (e : DecodeError), s.executing = true → s.FetchOk → decode s.wordAtPc = .error e →
    ∃ t, step s = .next t ∧ HostActs (.error .illegalOpcode) { s with executing := false } t ∧
      t.executing = false ∧ (s.replies = [] → t.pc = s.pc)

/-- D15 (log 1, log 20): the replies of the model reach every state the contract of the callbacks allows, so a claim
for every `replies` is a claim for every host. -/
def Obligations.RepliesReachEveryAllowedState : Prop :=
  ∀ s u : State, s.Inv → u.Inv → u.memSize = s.memSize → (u.executing = true → s.executing = true) →
    ∃ r : HostReply, (∀ q, regOk q = true → (s.applyReply r).reg q = u.reg q) ∧
      (s.applyReply r).mem = u.mem ∧ (s.applyReply r).executing = u.executing

/-! ### The register operands (10_state.md, 30_encoding.md) -/

/-- D2 (log 7): an instruction faults exactly when one of its register operands names no slot, read or not; every other
instruction takes a next state, in every state. -/
def Obligations.FaultExactlyOnUndefinedRegister : Prop :=
  ∀ (i : Instr) (s : State),
    (i.wf = false → exec i s = .fault .undefinedRegister) ∧ (i.wf = true → ∃ t, exec i s = .next t)

/-- D3 (log 9): the value of an ignored argument byte changes nothing. -/
def Obligations.IgnoredBytesChangeNothing : Prop :=
  ∀ (r r' : Reg) (x1 x2 x3 : Byte) (s : State),
    exec (.nop x1 x2 x3) s = exec (.nop 0 0 0) s ∧ exec (.not r r' x3) s = exec (.not r r' 0) s ∧
    exec (.mov r r' x3) s = exec (.mov r r' 0) s ∧ exec (.jmp r x2 x3) s = exec (.jmp r 0 0) s ∧
    exec (.cal r x2 x3) s = exec (.cal r 0 0) s ∧ exec (.ret x1 x2 x3) s = exec (.ret 0 0 0) s ∧
    exec (.sxt r r' x3) s = exec (.sxt r r' 0) s ∧ exec (.hlt x1 x2 x3) s = exec (.hlt 0 0 0) s

/-! ### The step (70_reset_and_hazards.md) -/

/-- 70_reset_and_hazards.md section 2: a RUNNING machine whose fetch reads memory runs the instruction the word at PC
decodes to; nothing is added around it. -/
def Obligations.StepRunsTheDecodedInstruction : Prop :=
  ∀ (s : State) (i : Instr), s.executing = true → s.FetchOk → decode s.wordAtPc = .ok i → step s = exec i s

/-- D11 (log 16): where `PC + 4 < MEM_SIZE` fails, InvalidMemoryAccess is reported, NOP runs, and PC advances from where
the callback left it. -/
def Obligations.FailedFetchRunsNop : Prop :=
  ∀ s : State, s.executing = true → ¬ s.FetchOk →
    ∃ u t, step s = .next t ∧ HostActs (.error .invalidMemoryAccess) s u ∧ AdvancesOnly u t

/-- A step stops in one case only: RUNNING, the fetch good, and an instruction with an undefined register at PC (D2,
log 7). It is never refused. -/
def Obligations.StepStopsOnlyOnUndefinedRegister : Prop :=
  ∀ s : State, (∃ t, step s = .next t) ∨
    (step s = .fault .undefinedRegister ∧ s.executing = true ∧ s.FetchOk ∧
      ∃ i, decode s.wordAtPc = .ok i ∧ i.wf = false)

/-- R155: the whole table of RUNNING and HALTED. -/
def Obligations.RunningAndHaltedTransitions : Prop :=
  (∀ s : State, s.init.executing = false) ∧
  (∀ (s t : State) (p : List Byte), s.load p = .next t → t.executing = true) ∧
  (∀ s : State, s.executing = false → step s = .next s) ∧
  ∀ s t : State, s.executing = true → step s = .next t →
    (t.executing = false ↔ HaltsByItself s ∨ CallbackCleared s t)

/-- D28 (log 28): a step invokes at most one callback, and takes one reply for it if there is one. -/
def Obligations.AtMostOneCallbackInAStep : Prop :=
  ∀ s t : State, step s = .next t →
    (t.events = s.events ∧ t.replies = s.replies) ∨
    ∃ e, t.events = s.events ++ [e] ∧ t.replies = s.replies.tail

/-- No step changes MEM_SIZE or SXT_SRC_BITS: they are parameters (00_scope.md section 3), and a callback may not change
MEM_SIZE (D15). -/
def Obligations.ParametersNeverChange : Prop :=
  ∀ s t : State, step s = .next t → t.memSize = s.memSize ∧ t.sxtSrcBits = s.sxtSrcBits

/-- Every step keeps the invariant: memory canonical, nothing listed at or above MEM_SIZE, MEM_SIZE in its range. -/
def Obligations.StepKeepsTheInvariant : Prop :=
  ∀ s t : State, s.Inv → step s = .next t → t.Inv

/-- The invariant holds at reset. -/
def Obligations.ResetMeetsTheInvariant : Prop := State.reset.Inv

/-- No byte of memory changes in a step that invoked no callback, but for the bytes that an in-bounds STW or STB at PC
stores to. -/
def Obligations.MemoryChangesOnlyByStores : Prop :=
  ∀ (s t : State) (a : Nat), step s = .next t → t.events = s.events → t.mem.read a ≠ s.mem.read a →
    s.executing = true ∧ s.FetchOk ∧ ∃ (rsrc rbase : Reg) (off8 : Byte),
      (decode s.wordAtPc = .ok (.stw rsrc rbase off8) ∧ InBounds s.memSize (effAddr s rbase off8) 4 ∧
        effAddr s rbase off8 ≤ a ∧ (a : Int) < effAddr s rbase off8 + 4) ∨
      (decode s.wordAtPc = .ok (.stb rsrc rbase off8) ∧ InBounds s.memSize (effAddr s rbase off8) 1 ∧
        (a : Int) = effAddr s rbase off8)

/-- The table of implicit writers (10_state.md section 1): in a step that invoked no callback, a register other than PC
changes only if the instruction at PC names it as its destination, or it is LR and the instruction is CAL or RET. -/
def Obligations.RegistersChangeOnlyAsNamed : Prop :=
  ∀ (s t : State) (q : Reg), step s = .next t → t.events = s.events → regOk q = true → q ≠ Slot.pc →
    t.reg q ≠ s.reg q →
    ∃ i, decode s.wordAtPc = .ok i ∧
      (destReg i = some q ∨ (q = Slot.lr ∧
        ((∃ r x2 x3, i = .cal r x2 x3) ∨ ∃ x1 x2 x3, i = .ret x1 x2 x3)))

/-- 10_state.md section 4: two machines that agree in all but the record of past invocations behave identically, and add
the same invocations to it. -/
def Obligations.PastEventsNeverInfluence : Prop :=
  ∀ (s : State) (es : List HostEvent),
    (∀ t, step s = .next t → ∃ new, t.events = s.events ++ new ∧
      step { s with events := es } = .next { t with events := es ++ new }) ∧
    ∀ f, step s = .fault f → step { s with events := es } = .fault f

/-! ### init, load and reset (70_reset_and_hazards.md) -/

/-- R150. -/
def Obligations.InitZeroesEverything : Prop :=
  ∀ s : State, (∀ q, regOk q = true → s.init.reg q = 0) ∧ (∀ a, s.init.mem.read a = 0) ∧
    s.init.executing = false ∧ s.init.memSize = s.memSize

/-- R151: the bytes of the program at 0, PC = 0, LR = 0, SP = MEM_SIZE - 1, RUNNING; nothing else is written. -/
def Obligations.LoadInstallsTheProgram : Prop :=
  ∀ (s : State) (p : List Byte), 1 ≤ s.memSize → s.memSize ≤ Config.maxMemSize → p.length ≤ s.memSize →
    ∃ t, s.load p = .next t ∧ t.pc = 0 ∧ t.reg Slot.lr = 0 ∧ (t.reg Slot.sp).toNat = s.memSize - 1 ∧
      t.executing = true ∧ RegsSameBut [Slot.pc, Slot.lr, Slot.sp] s t ∧
      (∀ (k : Nat) (b : Byte), p[k]? = some b → t.mem.read k = b) ∧
      (∀ a, p.length ≤ a → t.mem.read a = s.mem.read a) ∧
      t.memSize = s.memSize ∧ t.sxtSrcBits = s.sxtSrcBits ∧ t.replies = s.replies ∧ t.events = s.events

/-- D19 (log 23): a program of more than MEM_SIZE bytes is refused. -/
def Obligations.LoadRefusesALongProgram : Prop :=
  ∀ (s : State) (p : List Byte), s.memSize < p.length → s.load p = .refused .programTooLong

/-- D20 (log 5): the reset state is init, then load of the empty program, on the machine with the parameters of reset
and no callback. -/
def Obligations.ResetIsInitThenLoad : Prop :=
  ∀ s : State, s.memSize = memSizeAtReset → s.sxtSrcBits = sxtSrcBitsAtReset → s.replies = [] → s.events = [] →
    s.init.load [] = .next State.reset
end

