-- ==== Sys2Proof/Laws/State.lean ====
section
/-! SUPPORT. One small lemma per field per update of the state, so that no later proof unfolds a record update. -/

namespace Sys2Proof.Machine

theorem regOk_iff (r : Reg) : regOk r = true ↔ r.toNat < 37 := by
  simp only [regOk, decide_eq_true_eq]; omega

@[simp] theorem regOk_pc : regOk Slot.pc = true := by decide
@[simp] theorem regOk_lr : regOk Slot.lr = true := by decide
@[simp] theorem regOk_ad : regOk Slot.ad = true := by decide
@[simp] theorem regOk_at : regOk Slot.at = true := by decide
@[simp] theorem regOk_sp : regOk Slot.sp = true := by decide
@[simp] theorem lr_ne_pc : Slot.lr ≠ Slot.pc := by decide
@[simp] theorem pc_ne_lr : Slot.pc ≠ Slot.lr := by decide
@[simp] theorem sp_ne_pc : Slot.sp ≠ Slot.pc := by decide
@[simp] theorem pc_ne_sp : Slot.pc ≠ Slot.sp := by decide
@[simp] theorem sp_ne_lr : Slot.sp ≠ Slot.lr := by decide
@[simp] theorem lr_ne_sp : Slot.lr ≠ Slot.sp := by decide

/-! ### `setReg`: the slot written reads the value, every other slot reads as before -/

theorem reg_setReg (s : State) (r q : Reg) (v : Word) :
    (s.setReg r v).reg q = if q = r ∧ regOk r = true then v else s.reg q := by
  simp only [State.setReg, State.reg, Vector.getElem?_setIfInBounds, regOk_iff]
  by_cases hq : q = r
  · subst hq; by_cases h : q.toNat < 37 <;> simp [h]
  · have : r.toNat ≠ q.toNat := fun h => hq (BitVec.eq_of_toNat_eq h.symm)
    simp [this, hq]

@[simp] theorem reg_setReg_same (s : State) (r : Reg) (v : Word) (h : regOk r = true) :
    (s.setReg r v).reg r = v := by simp [reg_setReg, h]

@[simp] theorem reg_setReg_ne (s : State) (r q : Reg) (v : Word) (h : q ≠ r) :
    (s.setReg r v).reg q = s.reg q := by simp [reg_setReg, h]

@[simp] theorem setReg_mem (s : State) (r : Reg) (v : Word) : (s.setReg r v).mem = s.mem := rfl
@[simp] theorem setReg_executing (s : State) (r : Reg) (v : Word) : (s.setReg r v).executing = s.executing := rfl
@[simp] theorem setReg_memSize (s : State) (r : Reg) (v : Word) : (s.setReg r v).memSize = s.memSize := rfl
@[simp] theorem setReg_sxtSrcBits (s : State) (r : Reg) (v : Word) :
    (s.setReg r v).sxtSrcBits = s.sxtSrcBits := rfl
@[simp] theorem setReg_replies (s : State) (r : Reg) (v : Word) : (s.setReg r v).replies = s.replies := rfl
@[simp] theorem setReg_events (s : State) (r : Reg) (v : Word) : (s.setReg r v).events = s.events := rfl

theorem reg_pc (s : State) : s.reg Slot.pc = s.pc := rfl

/-! ### `advance` and `jump` -/

theorem reg_advance (s : State) (q : Reg) : s.advance.reg q = if q = Slot.pc then s.pc + 4 else s.reg q := by
  simp only [State.advance, reg_setReg, regOk_pc, and_true]; rfl

@[simp] theorem advance_pc (s : State) : s.advance.pc = s.pc + 4 := by
  simp [State.pc, reg_advance]
@[simp] theorem reg_advance_pc (s : State) : s.advance.reg Slot.pc = s.pc + 4 := by simp [reg_advance]
@[simp] theorem reg_advance_ne (s : State) (q : Reg) (h : q ≠ Slot.pc) : s.advance.reg q = s.reg q := by
  simp [reg_advance, h]
@[simp] theorem advance_mem (s : State) : s.advance.mem = s.mem := rfl
@[simp] theorem advance_executing (s : State) : s.advance.executing = s.executing := rfl
@[simp] theorem advance_memSize (s : State) : s.advance.memSize = s.memSize := rfl
@[simp] theorem advance_sxtSrcBits (s : State) : s.advance.sxtSrcBits = s.sxtSrcBits := rfl
@[simp] theorem advance_replies (s : State) : s.advance.replies = s.replies := rfl
@[simp] theorem advance_events (s : State) : s.advance.events = s.events := rfl

theorem reg_jump (s : State) (t : Word) (q : Reg) :
    (s.jump t).reg q = if q = Slot.pc then t else s.reg q := by
  simp [State.jump, reg_setReg]

@[simp] theorem jump_pc (s : State) (t : Word) : (s.jump t).pc = t := by simp [State.pc, reg_jump]
@[simp] theorem reg_jump_ne (s : State) (t : Word) (q : Reg) (h : q ≠ Slot.pc) :
    (s.jump t).reg q = s.reg q := by simp [reg_jump, h]
@[simp] theorem jump_mem (s : State) (t : Word) : (s.jump t).mem = s.mem := rfl
@[simp] theorem jump_executing (s : State) (t : Word) : (s.jump t).executing = s.executing := rfl
@[simp] theorem jump_memSize (s : State) (t : Word) : (s.jump t).memSize = s.memSize := rfl
@[simp] theorem jump_sxtSrcBits (s : State) (t : Word) : (s.jump t).sxtSrcBits = s.sxtSrcBits := rfl
@[simp] theorem jump_replies (s : State) (t : Word) : (s.jump t).replies = s.replies := rfl
@[simp] theorem jump_events (s : State) (t : Word) : (s.jump t).events = s.events := rfl

/-! ### `link`, the first assignment of CAL -/

theorem reg_link (s : State) (q : Reg) : s.link.reg q = if q = Slot.lr then s.pc + 4 else s.reg q := by
  simp only [State.link, reg_setReg, regOk_lr, and_true]; rfl
@[simp] theorem link_mem (s : State) : s.link.mem = s.mem := rfl
@[simp] theorem link_executing (s : State) : s.link.executing = s.executing := rfl
@[simp] theorem link_memSize (s : State) : s.link.memSize = s.memSize := rfl
@[simp] theorem link_sxtSrcBits (s : State) : s.link.sxtSrcBits = s.sxtSrcBits := rfl
@[simp] theorem link_replies (s : State) : s.link.replies = s.replies := rfl
@[simp] theorem link_events (s : State) : s.link.events = s.events := rfl

/-! ### Register reads do not see the other fields -/

@[simp] theorem reg_withMem (s : State) (m : Memory) (q : Reg) : State.reg { s with mem := m } q = s.reg q := rfl
@[simp] theorem reg_withExecuting (s : State) (b : Bool) (q : Reg) :
    State.reg { s with executing := b } q = s.reg q := rfl
@[simp] theorem reg_withEvents (s : State) (es : List HostEvent) (q : Reg) :
    State.reg { s with events := es } q = s.reg q := rfl
@[simp] theorem reg_withReplies (s : State) (rs : List HostReply) (es : List HostEvent) (q : Reg) :
    State.reg { s with replies := rs, events := es } q = s.reg q := rfl
@[simp] theorem pc_withMem (s : State) (m : Memory) : State.pc { s with mem := m } = s.pc := rfl
@[simp] theorem pc_withExecuting (s : State) (b : Bool) : State.pc { s with executing := b } = s.pc := rfl
@[simp] theorem pc_withEvents (s : State) (es : List HostEvent) : State.pc { s with events := es } = s.pc := rfl

/-- Two states that read alike in every slot and agree in the other fields are one state. -/
theorem State.ext_of_reads (s t : State) (hr : ∀ q, regOk q = true → s.reg q = t.reg q) (hm : s.mem = t.mem)
    (hx : s.executing = t.executing) (hn : s.memSize = t.memSize) (hb : s.sxtSrcBits = t.sxtSrcBits)
    (hp : s.replies = t.replies) (he : s.events = t.events) : s = t := by
  have hregs : s.regs = t.regs := by
    apply Vector.ext
    intro i hi
    have h := hr (BitVec.ofNat 8 i) ((regOk_iff _).2 (by simp; omega))
    have e : (BitVec.ofNat 8 i).toNat = i := by simp; omega
    simpa [State.reg, e, hi] using h
  cases s; cases t; simp_all

end Sys2Proof.Machine
end

