-- ==== Sys2Proof/Laws/Memory.lean ====
section
/-! SUPPORT. Memory: a read after a write, everywhere else unchanged, and every operation keeps the canonical form. -/

namespace Sys2Proof.Machine

@[simp] theorem Memory.read_nil (a : Nat) : Memory.read [] a = Memory.unlisted := rfl

theorem Memory.read_erase (m : Memory) (a c : Nat) :
    (m.erase a).read c = if c = a then Memory.unlisted else m.read c := by
  induction m with
  | nil => simp [Memory.erase]
  | cons x rest ih =>
    simp only [Memory.erase, List.filter_cons] at ih ⊢
    by_cases hx : x.1 = a
    · simp only [hx, ne_eq, not_true_eq_false, decide_false, Bool.false_eq_true, if_false, ih, Memory.read]
      split <;> simp_all
    · simp only [hx, ne_eq, not_false_eq_true, decide_true, if_true, Memory.read, ih]
      by_cases hc : c = x.1
      · simp [hc, hx]
      · simp [hc]

theorem Memory.read_insert (m : Memory) (a : Nat) (b : Byte) (c : Nat) :
    (m.insert a b).read c = if c = a then b else m.read c := by
  induction m with
  | nil => simp [Memory.insert, Memory.read]
  | cons x rest ih =>
    simp only [Memory.insert]
    split
    · simp [Memory.read]
    · split
      · rename_i h; subst h; simp only [Memory.read]; split <;> simp_all
      · simp only [Memory.read, ih]
        by_cases hc : c = x.1
        · have : c ≠ a := by omega
          simp only [hc, if_true] at this ⊢
          rw [if_neg this]
        · simp [hc]

/-- A read after a write: the byte written at its address, every other address as before. -/
theorem Memory.read_write (m : Memory) (a : Nat) (b : Byte) (c : Nat) :
    (m.write a b).read c = if c = a then b else m.read c := by
  unfold Memory.write
  split
  · rename_i h; rw [Memory.read_erase, h]
  · exact Memory.read_insert m a b c

@[simp] theorem Memory.read_write_same (m : Memory) (a : Nat) (b : Byte) : (m.write a b).read a = b := by
  simp [Memory.read_write]

theorem Memory.read_write_ne (m : Memory) (a : Nat) (b : Byte) (c : Nat) (h : c ≠ a) :
    (m.write a b).read c = m.read c := by simp [Memory.read_write, h]

/-- A read after a run of byte writes. -/
theorem Memory.read_writeBytes (m : Memory) (a : Nat) (bs : List Byte) (c : Nat) :
    (m.writeBytes a bs).read c = if a ≤ c then (bs[c - a]?).getD (m.read c) else m.read c := by
  induction bs generalizing m a with
  | nil => simp [Memory.writeBytes]
  | cons b rest ih =>
    rw [Memory.writeBytes, ih, Memory.read_write]
    by_cases h1 : a + 1 ≤ c
    · have h2 : a ≤ c := by omega
      have h3 : c ≠ a := by omega
      have h4 : c - a = (c - (a + 1)) + 1 := by omega
      simp [h1, h2, h3, h4]
    · by_cases h2 : c = a
      · simp [h2]
      · have : ¬ a ≤ c := by omega
        simp [h1, h2, this]

/-- A read after a word write: the four bytes, most significant first, every other address as before. -/
theorem Memory.read_writeWord (m : Memory) (a : Nat) (v : Word) (c : Nat) :
    (m.writeWord a v).read c =
      if c = a then (lanes v).op else if c = a + 1 then (lanes v).a1
      else if c = a + 2 then (lanes v).a2 else if c = a + 3 then (lanes v).a3 else m.read c := by
  simp only [Memory.writeWord, wordBytes, Memory.writeBytes, Memory.read_write]
  split_ifs <;> first | rfl | omega

/-! ### The canonical form -/

theorem Memory.wf_nil : Memory.wf [] := by decide

theorem Memory.mem_of_insert {m : Memory} {a : Nat} {b : Byte} {c : Host.Cell} (h : c ∈ m.insert a b) :
    c = (a, b) ∨ c ∈ m := by
  induction m with
  | nil => simp_all [Memory.insert]
  | cons x rest ih =>
    simp only [Memory.insert] at h
    split at h
    · simpa using h
    · split at h
      · simp only [List.mem_cons] at h ⊢; tauto
      · simp only [List.mem_cons] at h ⊢
        rcases h with h | h
        · tauto
        · rcases ih h with h | h <;> tauto

theorem Memory.sorted_insert {m : Memory} (a : Nat) (b : Byte) (h : m.Pairwise (fun c d => c.1 < d.1)) :
    (m.insert a b).Pairwise (fun c d => c.1 < d.1) := by
  induction m with
  | nil => simp [Memory.insert]
  | cons x rest ih =>
    rw [List.pairwise_cons] at h
    simp only [Memory.insert]
    split
    · rename_i hlt
      refine List.pairwise_cons.2 ⟨?_, List.pairwise_cons.2 h⟩
      intro c hc
      rcases List.mem_cons.1 hc with rfl | hc
      · exact hlt
      · exact hlt.trans (h.1 c hc)
    · split
      · rename_i heq
        exact List.pairwise_cons.2 ⟨fun c hc => by simpa [heq] using h.1 c hc, h.2⟩
      · refine List.pairwise_cons.2 ⟨?_, ih h.2⟩
        intro c hc
        rcases Memory.mem_of_insert hc with rfl | hc
        · simp only; omega
        · exact h.1 c hc

/-- A cell listed after a write was listed before, or is the byte written. -/
theorem Memory.mem_of_write {m : Memory} {a : Nat} {b : Byte} {c : Host.Cell} (h : c ∈ m.write a b) :
    c = (a, b) ∨ c ∈ m := by
  unfold Memory.write at h
  split at h
  · exact .inr (List.mem_of_mem_filter h)
  · exact Memory.mem_of_insert h

theorem Memory.wf_write {m : Memory} (h : m.wf) (a : Nat) (b : Byte) : (m.write a b).wf := by
  unfold Memory.write
  split
  · exact ⟨h.1.filter _, fun c hc => h.2 c (List.mem_of_mem_filter hc)⟩
  · rename_i hb
    refine ⟨Memory.sorted_insert a b h.1, fun c hc => ?_⟩
    rcases Memory.mem_of_insert hc with rfl | hc
    · exact hb
    · exact h.2 c hc

theorem Memory.wf_writeBytes {m : Memory} (h : m.wf) (a : Nat) (bs : List Byte) : (m.writeBytes a bs).wf := by
  induction bs generalizing m a with
  | nil => exact h
  | cons b rest ih => exact ih (Memory.wf_write h a b) (a + 1)

theorem Memory.wf_writeWord {m : Memory} (h : m.wf) (a : Nat) (v : Word) : (m.writeWord a v).wf :=
  Memory.wf_writeBytes h a _

theorem Memory.wf_writeCells {m : Memory} (h : m.wf) (n : Nat) (cs : List Host.Cell) :
    (Memory.writeCells n m cs).wf := by
  induction cs generalizing m with
  | nil => exact h
  | cons c rest ih =>
    rw [Memory.writeCells]
    split
    · exact ih (Memory.wf_write h _ _)
    · exact ih h

/-- Every listed address lies below `n`. -/
abbrev Memory.below (m : Memory) (n : Nat) : Prop := ∀ c ∈ m, c.1 < n

theorem Memory.below_write {m : Memory} {n : Nat} (h : m.below n) {a : Nat} (ha : a < n) (b : Byte) :
    (m.write a b).below n := by
  intro c hc
  rcases Memory.mem_of_write hc with rfl | hc
  · exact ha
  · exact h c hc

theorem Memory.below_writeBytes {m : Memory} {n : Nat} (h : m.below n) (a : Nat) (bs : List Byte)
    (ha : a + bs.length ≤ n) : (m.writeBytes a bs).below n := by
  induction bs generalizing m a with
  | nil => exact h
  | cons b rest ih =>
    simp only [List.length_cons] at ha
    exact ih (Memory.below_write h (by omega) b) (a + 1) (by omega)

theorem Memory.below_writeCells {m : Memory} {n : Nat} (h : m.below n) (cs : List Host.Cell) :
    (Memory.writeCells n m cs).below n := by
  induction cs generalizing m with
  | nil => exact h
  | cons c rest ih =>
    rw [Memory.writeCells]
    split
    · rename_i hc; exact ih (Memory.below_write h hc _)
    · exact ih h

theorem Memory.read_of_not_listed {m : Memory} {a : Nat} (h : ∀ c ∈ m, c.1 ≠ a) : m.read a = Memory.unlisted := by
  induction m with
  | nil => rfl
  | cons x rest ih =>
    have hx : a ≠ x.1 := fun e => h x (by simp) e.symm
    simp only [Memory.read, hx, if_false]
    exact ih fun c hc => h c (by simp [hc])

theorem Memory.read_of_mem {m : Memory} (h : m.wf) {c : Host.Cell} (hc : c ∈ m) : m.read c.1 = c.2 := by
  induction m with
  | nil => simp at hc
  | cons x rest ih =>
    have h1 := List.pairwise_cons.1 h.1
    rcases List.mem_cons.1 hc with rfl | hc
    · simp [Memory.read]
    · have : c.1 ≠ x.1 := by have := h1.1 c hc; omega
      simp only [Memory.read, this, if_false]
      exact ih ⟨h1.2, fun d hd => h.2 d (by simp [hd])⟩ hc

/-- Equal memories are equal data: two canonical lists that read alike are one list. -/
theorem Memory.ext_of_read {m n : Memory} (hm : m.wf) (hn : n.wf) (h : ∀ a, m.read a = n.read a) : m = n := by
  have sub : ∀ {m n : Memory}, m.wf → n.wf → (∀ a, m.read a = n.read a) → ∀ c ∈ m, c ∈ n := by
    intro m n hm hn h c hc
    have hr := Memory.read_of_mem hm hc
    by_contra hcn
    have hnot : ∀ d ∈ n, d.1 ≠ c.1 := by
      intro d hd e
      have hd' := Memory.read_of_mem hn hd
      apply hcn
      have : d = c := by
        apply Prod.ext e
        rw [← hd', ← hr, e, h]
      exact this ▸ hd
    have := Memory.read_of_not_listed hnot
    rw [← h, hr] at this
    exact hm.2 c hc this
  have nd : ∀ {m : Memory}, m.wf → m.Nodup := fun hm =>
    hm.1.imp fun hlt e => absurd (congrArg Prod.fst e) (Nat.ne_of_lt hlt)
  have hperm : m.Perm n := (List.perm_ext_iff_of_nodup (nd hm) (nd hn)).2
    fun c => ⟨sub hm hn h c, sub hn hm (fun a => (h a).symm) c⟩
  exact hperm.eq_of_pairwise (fun a b _ _ h1 h2 => absurd h1 (by omega)) hm.1 hn.1

end Sys2Proof.Machine
end

