-- ==== Sys2Proof/Laws/Ops.lean ====
section
/-! SUPPORT. One lemma per shared operation, saying once all it does: the host ports, the endings that meanings share,
and the invariant through each. -/

namespace Sys2Proof.Machine

theorem guardRegs_ok {rs : List Reg} {r : Result} (h : rs.all regOk = true) : guardRegs rs r = r := by
  simp [guardRegs, h]

theorem guardRegs_bad {rs : List Reg} {r : Result} (h : rs.all regOk = false) :
    guardRegs rs r = .fault .undefinedRegister := by simp [guardRegs, h]

/-- A guarded meaning answers a next state only if every register operand names a slot. -/
theorem guardRegs_next {rs : List Reg} {r : Result} {t : State} (h : guardRegs rs r = .next t) :
    rs.all regOk = true ∧ r = .next t := by
  unfold guardRegs at h
  split at h
  · exact ⟨‹_›, h⟩
  · cases h

/-! ### Small facts -/

theorem toNat_add_four (x : Word) : (x + 4).toNat = (x.toNat + 4) % 2 ^ 32 := by simp [BitVec.toNat_add]

theorem sext8_eq (b : Byte) : sext8 b = if b.toNat ≤ 127 then (b.toNat : Int) else (b.toNat : Int) - 256 := by
  have := b.isLt
  simp only [sext8, BitVec.toInt]
  split <;> split <;> omega

theorem ea_eq (s : State) (rbase : Reg) (off8 : Byte) : s.ea rbase off8 = effAddr s rbase off8 := by
  simp only [State.ea, effAddr, sext8_eq]

theorem inBounds_iff (s : State) (ea : Int) (n : Nat) : s.inBounds ea n = true ↔ InBounds s.memSize ea n := by
  simp [State.inBounds, InBounds]

/-! ### Endings -/

theorem advance_advancesOnly (s : State) : AdvancesOnly s s.advance where
  quiet := ⟨rfl, rfl, rfl, rfl, rfl⟩
  mem _ := rfl
  regs q _ h := by simp_all
  pc := by rw [advance_pc, toNat_add_four]

theorem setReg_advance_writesReg {rd : Reg} (v : Word) (s : State) (h : regOk rd = true) :
    WritesReg rd v s (s.setReg rd v).advance where
  quiet := ⟨rfl, rfl, rfl, rfl, rfl⟩
  mem _ := rfl
  regs q _ hq := by
    simp only [List.mem_cons, List.not_mem_nil, or_false, not_or] at hq
    simp [hq.1, hq.2]
  value hne := by
    refine ⟨by simp [h, hne], ?_⟩
    rw [advance_pc, toNat_add_four, State.pc, reg_setReg_ne _ _ _ _ (Ne.symm hne)]; rfl
  valuePc he := by
    subst he
    rw [advance_pc, toNat_add_four, State.pc, reg_setReg_same _ _ _ (by simp)]

/-- What `x[rd] <- v; advance` answers. -/
theorem writeAdvance_spec {rd : Reg} (v : Word) (s : State) (h : regOk rd = true) :
    ∃ t, writeAdvance rd v s = .next t ∧ WritesReg rd v s t :=
  ⟨_, rfl, setReg_advance_writesReg v s h⟩

theorem jump_jumpsTo (s : State) (v : Word) : JumpsTo v s (s.jump v) where
  quiet := ⟨rfl, rfl, rfl, rfl, rfl⟩
  mem _ := rfl
  regs q _ h := by simp_all
  pc := jump_pc s v

/-! ### The host ports -/

theorem reg_setRegs (s : State) (ws : List (Reg × Word)) (q : Reg) (h : regOk q = true) :
    (s.setRegs ws).reg q = (lastWrite ws q).getD (s.reg q) := by
  induction ws generalizing s with
  | nil => rfl
  | cons w rest ih =>
    rw [State.setRegs, ih, lastWrite]
    by_cases hw : w.1 = q
    · subst hw; cases lastWrite rest w.1 <;> simp [h]
    · rw [reg_setReg_ne _ _ _ _ (Ne.symm hw)]; cases lastWrite rest q <;> simp [hw]

@[simp] theorem setRegs_memSize (s : State) (ws : List (Reg × Word)) : (s.setRegs ws).memSize = s.memSize := by
  induction ws generalizing s with
  | nil => rfl
  | cons w rest ih => rw [State.setRegs, ih]; rfl
@[simp] theorem setRegs_sxtSrcBits (s : State) (ws : List (Reg × Word)) :
    (s.setRegs ws).sxtSrcBits = s.sxtSrcBits := by
  induction ws generalizing s with
  | nil => rfl
  | cons w rest ih => rw [State.setRegs, ih]; rfl
@[simp] theorem setRegs_replies (s : State) (ws : List (Reg × Word)) : (s.setRegs ws).replies = s.replies := by
  induction ws generalizing s with
  | nil => rfl
  | cons w rest ih => rw [State.setRegs, ih]; rfl
@[simp] theorem setRegs_events (s : State) (ws : List (Reg × Word)) : (s.setRegs ws).events = s.events := by
  induction ws generalizing s with
  | nil => rfl
  | cons w rest ih => rw [State.setRegs, ih]; rfl

theorem Memory.read_writeCells (n : Nat) (m : Memory) (cs : List Host.Cell) (a : Nat) :
    (Memory.writeCells n m cs).read a = if a < n then (lastWrite cs a).getD (m.read a) else m.read a := by
  induction cs generalizing m with
  | nil => simp [Memory.writeCells, lastWrite]
  | cons c rest ih =>
    rw [Memory.writeCells, ih, lastWrite]
    by_cases ha : a < n
    · by_cases hc : c.1 = a
      · subst hc; cases lastWrite rest c.1 <;> simp [ha]
      · have hw : ((if c.1 < n then m.write c.1 c.2 else m) : Memory).read a = m.read a := by
          split
          · exact Memory.read_write_ne _ _ _ _ (Ne.symm hc)
          · rfl
        rw [hw]; cases lastWrite rest a <;> simp [hc]
    · have hw : ((if c.1 < n then m.write c.1 c.2 else m) : Memory).read a = m.read a := by
        split
        · exact Memory.read_write_ne _ _ _ _ (by omega)
        · rfl
      simp [ha, hw]

/-- One invocation of a host port does what the contract of R137 allows, and no more. -/
theorem callHost_acts (s : State) (e : HostEvent) : HostActs e s (s.callHost e) := by
  unfold State.callHost
  cases hr : s.replies with
  | nil => exact ⟨rfl, rfl, rfl, fun _ => ⟨by simp, rfl, rfl, fun _ _ => rfl⟩, by simp [hr]⟩
  | cons r rest =>
    refine ⟨by simp [State.applyReply], by simp [State.applyReply], by simp [State.applyReply], by simp [hr], ?_⟩
    intro r' rest' h
    rw [hr] at h
    obtain ⟨rfl, rfl⟩ := List.cons.inj h
    refine ⟨by simp [State.applyReply], by simp [State.applyReply], ?_, ?_⟩
    · intro q hq
      exact reg_setRegs _ _ _ hq
    · intro a
      simp only [State.applyReply]
      exact Memory.read_writeCells _ _ _ _

@[simp] theorem callHost_events (s : State) (e : HostEvent) : (s.callHost e).events = s.events ++ [e] :=
  (callHost_acts s e).events
@[simp] theorem callHost_memSize (s : State) (e : HostEvent) : (s.callHost e).memSize = s.memSize :=
  (callHost_acts s e).memSize
@[simp] theorem callHost_sxtSrcBits (s : State) (e : HostEvent) : (s.callHost e).sxtSrcBits = s.sxtSrcBits :=
  (callHost_acts s e).sxtSrcBits

/-- A callback never sets executing (C4, D15). -/
theorem callHost_executing (s : State) (e : HostEvent) (h : (s.callHost e).executing = true) :
    s.executing = true := by
  cases hr : s.replies with
  | nil => rw [← ((callHost_acts s e).absent hr).2.1, h]
  | cons r rest =>
    have := ((callHost_acts s e).present r rest hr).2.1
    rw [h] at this
    simp_all

/-! ### The invariant through each operation -/

theorem State.Inv.withMem {s : State} (h : s.Inv) (m : Memory) (hw : m.wf) (hb : ∀ c ∈ m, c.1 < s.memSize) :
    State.Inv { s with mem := m } := ⟨hw, hb, h.sizePos, h.sizeMax⟩

/-- The invariant speaks of memory and MEM_SIZE alone. -/
theorem State.Inv.congr {s t : State} (h : s.Inv) (hm : t.mem = s.mem) (hn : t.memSize = s.memSize) : t.Inv := by
  obtain ⟨h1, h2, h3, h4⟩ := h
  exact ⟨hm ▸ h1, by rw [hm, hn]; exact h2, hn ▸ h3, hn ▸ h4⟩

theorem State.Inv.setReg {s : State} (h : s.Inv) (r : Reg) (v : Word) : (s.setReg r v).Inv := h.congr rfl rfl
theorem State.Inv.advance {s : State} (h : s.Inv) : s.advance.Inv := h.congr rfl rfl
theorem State.Inv.jump {s : State} (h : s.Inv) (t : Word) : (s.jump t).Inv := h.congr rfl rfl

theorem State.Inv.callHost {s : State} (h : s.Inv) (e : HostEvent) : (s.callHost e).Inv := by
  unfold State.callHost
  cases s.replies with
  | nil => exact h.congr rfl rfl
  | cons r rest =>
    refine ⟨?_, ?_, ?_, ?_⟩
    · exact Memory.wf_writeCells h.memWf _ _
    · simp only [State.applyReply, setRegs_memSize]
      exact Memory.below_writeCells h.memBelow _
    · simpa [State.applyReply] using h.sizePos
    · simpa [State.applyReply] using h.sizeMax

theorem State.Inv.storeWord {s : State} (h : s.Inv) {ea : Int} (hb : s.inBounds ea 4 = true) (v : Word) :
    State.Inv { s with mem := s.mem.writeWord ea.toNat v } := by
  have hb := (inBounds_iff _ _ _).1 hb
  obtain ⟨h0, h1⟩ := hb
  refine h.withMem _ (Memory.wf_writeWord h.memWf _ _) (Memory.below_writeBytes h.memBelow _ _ ?_)
  simp only [wordBytes, List.length_cons, List.length_nil]
  omega

theorem State.Inv.storeByte {s : State} (h : s.Inv) {ea : Int} (hb : s.inBounds ea 1 = true) (b : Byte) :
    State.Inv { s with mem := s.mem.write ea.toNat b } := by
  obtain ⟨h0, h1⟩ := (inBounds_iff _ _ _).1 hb
  exact h.withMem _ (Memory.wf_write h.memWf _ _) (Memory.below_write h.memBelow (by omega) _)

/-! ### Fetch -/

theorem fetch_ok {s : State} (h : s.FetchOk) : s.fetch = (s.wordAtPc, s) := by
  simp only [State.FetchOk] at h
  simp [State.fetch, Config.instrBytes, h, State.wordAtPc]

theorem fetch_failed {s : State} (h : ¬ s.FetchOk) : s.fetch = (0, s.raise .invalidMemoryAccess) := by
  simp only [State.FetchOk] at h
  simp [State.fetch, Config.instrBytes, h]

/-- The word that `withFetchWord` stores is the word the next fetch reads. -/
theorem readWord_writeWord (m : Memory) (a : Nat) (v : Word) : (m.writeWord a v).readWord a = (lanes v).word := by
  simp [Memory.readWord, Memory.read_writeWord, Lanes.word]

end Sys2Proof.Machine
end

