-- ==== Sys2Proof/Laws/PerInstr.lean ====
section
/-! SUPPORT. What holds of every instruction as syntax, constructor by constructor: its word decodes to it. -/

namespace Sys2Proof.Laws

/-- Bit `i` of a word made of four lanes. -/
theorem getLsbD_word (o a b c : Byte) (i : Nat) :
    BitVec.getLsbD (o ++ a ++ b ++ c : Word) i =
      if i < 8 then c.getLsbD i else if i < 16 then b.getLsbD (i - 8)
      else if i < 24 then a.getLsbD (i - 16) else o.getLsbD (i - 24) := by
  have h : BitVec.getLsbD (o ++ a ++ b ++ c : Word) i =
      if i < 8 then c.getLsbD i else (o ++ a ++ b).getLsbD (i - 8) := BitVec.getLsbD_append
  rw [h, BitVec.getLsbD_append, BitVec.getLsbD_append]
  split_ifs <;> first | rfl | omega

theorem getLsbD_imm16Of (a b : Byte) (i : Nat) :
    (imm16Of a b).getLsbD i = if i < 8 then a.getLsbD i else b.getLsbD (i - 8) := BitVec.getLsbD_append

theorem getLsbD_imm24Of (a b c : Byte) (i : Nat) :
    (imm24Of a b c).getLsbD i =
      if i < 8 then a.getLsbD i else if i < 16 then b.getLsbD (i - 8) else c.getLsbD (i - 16) := by
  have h : (imm24Of a b c).getLsbD i = if i < 8 then a.getLsbD i else (c ++ b).getLsbD (i - 8) :=
    BitVec.getLsbD_append
  rw [h, BitVec.getLsbD_append]
  split_ifs <;> first | rfl | omega

/-- Splitting the lanes put together gives the lanes back (R52). -/
theorem lanes_word (l : Lanes) : lanes l.word = l := by
  obtain ⟨o, a, b, c⟩ := l
  simp only [lanes, Lanes.word, Lanes.mk.injEq]
  refine ⟨?_, ?_, ?_, ?_⟩ <;>
    (apply BitVec.eq_of_getLsbD_eq; intro i hi
     simp only [BitVec.getLsbD_extractLsb', getLsbD_word, hi, decide_true, Bool.true_and]
     split_ifs <;> first | omega | (congr 1; omega))

theorem decode_word (l : Lanes) : decode l.word = decodeLanes l := by rw [decode, lanes_word]

theorem imm16Of_parts (v : BitVec 16) : imm16Of (v.extractLsb' 0 8) (v.extractLsb' 8 8) = v := by
  apply BitVec.eq_of_getLsbD_eq; intro i hi
  simp only [getLsbD_imm16Of, BitVec.getLsbD_extractLsb']
  split_ifs with h
  · simp [h]
  · simp [show i - 8 < 8 by omega, show 8 + (i - 8) = i by omega]

theorem imm24Of_parts (v : BitVec 24) :
    imm24Of (v.extractLsb' 0 8) (v.extractLsb' 8 8) (v.extractLsb' 16 8) = v := by
  apply BitVec.eq_of_getLsbD_eq; intro i hi
  simp only [getLsbD_imm24Of, BitVec.getLsbD_extractLsb']
  split_ifs with h h'
  · simp [h]
  · simp [show i - 8 < 8 by omega, show 8 + (i - 8) = i by omega]
  · simp [show i - 16 < 8 by omega, show 16 + (i - 16) = i by omega]

end Sys2Proof.Laws

namespace Sys2Proof.Laws.RoundTrip

/-- Decoding the word of `i` gives `i`, with every operand at every value, ignored bytes included. -/
def Statement (i : Instr) : Prop := decode (encode i) = .ok i

theorem nop (x1 : Byte) (x2 : Byte) (x3 : Byte) : Statement (.nop x1 x2 x3) := decode_word _
theorem add (rd : Byte) (rs1 : Byte) (rs2 : Byte) : Statement (.add rd rs1 rs2) := decode_word _
theorem sub (rd : Byte) (rs1 : Byte) (rs2 : Byte) : Statement (.sub rd rs1 rs2) := decode_word _
theorem and (rd : Byte) (rs1 : Byte) (rs2 : Byte) : Statement (.and rd rs1 rs2) := decode_word _
theorem orr (rd : Byte) (rs1 : Byte) (rs2 : Byte) : Statement (.orr rd rs1 rs2) := decode_word _
theorem xor (rd : Byte) (rs1 : Byte) (rs2 : Byte) : Statement (.xor rd rs1 rs2) := decode_word _
theorem not (rd : Byte) (rs1 : Byte) (x3 : Byte) : Statement (.not rd rs1 x3) := decode_word _
theorem lsh (rd : Byte) (rs1 : Byte) (rs2 : Byte) : Statement (.lsh rd rs1 rs2) := decode_word _
theorem ash (rd : Byte) (rs1 : Byte) (rs2 : Byte) : Statement (.ash rd rs1 rs2) := decode_word _
theorem tcu (rd : Byte) (rs1 : Byte) (rs2 : Byte) : Statement (.tcu rd rs1 rs2) := decode_word _
theorem tcs (rd : Byte) (rs1 : Byte) (rs2 : Byte) : Statement (.tcs rd rs1 rs2) := decode_word _
theorem set (rd : Byte) (imm16 : BitVec 16) : Statement (.set rd imm16) := by
  rw [Statement, encode, decode_word]; simp [encodeLanes, imm16Lanes, decodeLanes, imm16Of_parts]
theorem mov (rd : Byte) (rs1 : Byte) (x3 : Byte) : Statement (.mov rd rs1 x3) := decode_word _
theorem ldw (rd : Byte) (rbase : Byte) (off8 : Byte) : Statement (.ldw rd rbase off8) := decode_word _
theorem stw (rsrc : Byte) (rbase : Byte) (off8 : Byte) : Statement (.stw rsrc rbase off8) := decode_word _
theorem ldb (rd : Byte) (rbase : Byte) (off8 : Byte) : Statement (.ldb rd rbase off8) := decode_word _
theorem stb (rsrc : Byte) (rbase : Byte) (off8 : Byte) : Statement (.stb rsrc rbase off8) := decode_word _
theorem jmi (imm24 : BitVec 24) : Statement (.jmi imm24) := by
  rw [Statement, encode, decode_word]; simp [encodeLanes, imm24Lanes, decodeLanes, imm24Of_parts]
theorem jmp (rtarget : Byte) (x2 : Byte) (x3 : Byte) : Statement (.jmp rtarget x2 x3) := decode_word _
theorem bve (rtarget : Byte) (rs1 : Byte) (cmp8 : Byte) : Statement (.bve rtarget rs1 cmp8) := decode_word _
theorem bvn (rtarget : Byte) (rs1 : Byte) (cmp8 : Byte) : Statement (.bvn rtarget rs1 cmp8) := decode_word _
theorem cal (rtarget : Byte) (x2 : Byte) (x3 : Byte) : Statement (.cal rtarget x2 x3) := decode_word _
theorem ret (x1 : Byte) (x2 : Byte) (x3 : Byte) : Statement (.ret x1 x2 x3) := decode_word _
theorem mul (rd : Byte) (rs1 : Byte) (rs2 : Byte) : Statement (.mul rd rs1 rs2) := decode_word _
theorem div (rd : Byte) (rs1 : Byte) (rs2 : Byte) : Statement (.div rd rs1 rs2) := decode_word _
theorem mod (rd : Byte) (rs1 : Byte) (rs2 : Byte) : Statement (.mod rd rs1 rs2) := decode_word _
theorem sia (rd : Byte) (val8 : Byte) (sh8 : Byte) : Statement (.sia rd val8 sh8) := decode_word _
theorem sup (rd : Byte) (imm16 : BitVec 16) : Statement (.sup rd imm16) := by
  rw [Statement, encode, decode_word]; simp [encodeLanes, imm16Lanes, decodeLanes, imm16Of_parts]
theorem sxt (rd : Byte) (rs1 : Byte) (x3 : Byte) : Statement (.sxt rd rs1 x3) := decode_word _
theorem seq (rd : Byte) (rs1 : Byte) (cmp8 : Byte) : Statement (.seq rd rs1 cmp8) := decode_word _
theorem int (imm24 : BitVec 24) : Statement (.int imm24) := by
  rw [Statement, encode, decode_word]; simp [encodeLanes, imm24Lanes, decodeLanes, imm24Of_parts]
theorem snd (rdev : Byte) (rcmd : Byte) (rdata : Byte) : Statement (.snd rdev rcmd rdata) := decode_word _
theorem hlt (x1 : Byte) (x2 : Byte) (x3 : Byte) : Statement (.hlt x1 x2 x3) := decode_word _

end Sys2Proof.Laws.RoundTrip
end

