-- ==== Sys2Proof/Laws/Step.lean ====
section
/-! SUPPORT. What an instruction and a step can do, said once: the inversion of `exec` and of `step`. Every invariant
is a case analysis over these. -/

namespace Sys2Proof.Machine

/-- All that an instruction can do when it answers a next state. -/
inductive Effect (i : Instr) (s t : State) : Prop where
  | advances (h : t = s.advance)
  | writes (rd : Reg) (v : Word) (hd : destReg i = some rd) (ok : regOk rd = true) (h : t = (s.setReg rd v).advance)
  | storesWord (rsrc rbase : Reg) (off8 : Byte) (hi : i = .stw rsrc rbase off8)
      (hb : s.inBounds (s.ea rbase off8) 4 = true)
      (h : t = { s with mem := s.mem.writeWord (s.ea rbase off8).toNat (s.reg rsrc) }.advance)
  | storesByte (rsrc rbase : Reg) (off8 : Byte) (hi : i = .stb rsrc rbase off8)
      (hb : s.inBounds (s.ea rbase off8) 1 = true)
      (h : t = { s with mem := s.mem.write (s.ea rbase off8).toNat ((s.reg rsrc).setWidth 8) }.advance)
  | jumps (v : Word) (h : t = s.jump v)
  | calls (rtarget : Reg) (x2 x3 : Byte) (hi : i = .cal rtarget x2 x3) (h : t = s.link.jump (s.link.reg rtarget))
  | returns (x1 x2 x3 : Byte) (hi : i = .ret x1 x2 x3) (hl : s.reg Slot.lr ≠ 0)
      (h : t = (s.jump (s.reg Slot.lr)).setReg Slot.lr 0)
  | halts (hi : (∃ x1 x2 x3, i = .hlt x1 x2 x3) ∨ ((∃ x1 x2 x3, i = .ret x1 x2 x3) ∧ s.reg Slot.lr = 0))
      (h : t = { s with executing := false })
  | host (e : HostEvent) (h : t = (s.callHost e).advance)

/-- Inversion of a meaning that only writes a register and advances. -/
theorem Effect.of_write {i : Instr} {s t : State} {rs : List Reg} {rd : Reg} {v : Word} (hd : destReg i = some rd)
    (hm : rd ∈ rs) (h : guardRegs rs (writeAdvance rd v s) = .next t) : Effect i s t := by
  obtain ⟨hr, h⟩ := guardRegs_next h
  exact .writes rd v hd (List.all_eq_true.1 hr rd hm) (Host.Outcome.next.inj h).symm

/-- Inversion of `exec`. -/
theorem exec_next {i : Instr} {s t : State} (h : exec i s = .next t) : Effect i s t := by
  cases i with
  | nop => exact .advances (Host.Outcome.next.inj h).symm
  | add | sub | and | orr | xor | not | lsh | ash | tcu | tcs | set | mov | mul | sup | sxt | seq =>
    exact .of_write rfl (by simp) h
  | ldw rd rbase off8 | ldb rd rbase off8 =>
    obtain ⟨hr, h⟩ := guardRegs_next h
    split at h
    · exact .writes rd _ rfl (by simp_all) (Host.Outcome.next.inj h).symm
    · exact .host _ (Host.Outcome.next.inj h).symm
  | stw rsrc rbase off8 =>
    obtain ⟨hr, h⟩ := guardRegs_next h
    split at h
    · exact .storesWord rsrc rbase off8 rfl ‹_› (Host.Outcome.next.inj h).symm
    · exact .host _ (Host.Outcome.next.inj h).symm
  | stb rsrc rbase off8 =>
    obtain ⟨hr, h⟩ := guardRegs_next h
    split at h
    · exact .storesByte rsrc rbase off8 rfl ‹_› (Host.Outcome.next.inj h).symm
    · exact .host _ (Host.Outcome.next.inj h).symm
  | jmi => exact .jumps _ (Host.Outcome.next.inj h).symm
  | jmp => exact .jumps _ (Host.Outcome.next.inj (guardRegs_next h).2).symm
  | bve | bvn =>
    obtain ⟨hr, h⟩ := guardRegs_next h
    unfold branchIf at h
    split at h
    · exact .jumps _ (Host.Outcome.next.inj h).symm
    · exact .advances (Host.Outcome.next.inj h).symm
  | cal rtarget x2 x3 => exact .calls rtarget x2 x3 rfl (Host.Outcome.next.inj (guardRegs_next h).2).symm
  | ret x1 x2 x3 =>
    simp only [exec, execRet] at h
    split at h
    · exact .halts (.inr ⟨⟨x1, x2, x3, rfl⟩, ‹_›⟩) (Host.Outcome.next.inj h).symm
    · exact .returns x1 x2 x3 rfl ‹_› (Host.Outcome.next.inj h).symm
  | div rd rs1 rs2 | mod rd rs1 rs2 =>
    obtain ⟨hr, h⟩ := guardRegs_next h
    split at h
    · exact .host _ (Host.Outcome.next.inj h).symm
    · exact .writes rd _ rfl (by simp_all) (Host.Outcome.next.inj h).symm
  | sia rd val8 sh8 =>
    obtain ⟨hr, h⟩ := guardRegs_next h
    split at h
    · exact .writes rd _ rfl (by simp_all) (Host.Outcome.next.inj h).symm
    · exact .advances (Host.Outcome.next.inj h).symm
  | int => exact .host _ (Host.Outcome.next.inj h).symm
  | snd => exact .host _ (Host.Outcome.next.inj (guardRegs_next h).2).symm
  | hlt x1 x2 x3 => exact .halts (.inl ⟨x1, x2, x3, rfl⟩) (Host.Outcome.next.inj h).symm

/-- All that a step can do when it answers a next state. -/
inductive StepEffect (s t : State) : Prop where
  | halted (hx : s.executing = false) (h : t = s)
  | runs (hx : s.executing = true) (hf : s.FetchOk) (i : Instr) (hd : decode s.wordAtPc = .ok i) (h : Effect i s t)
  | illegal (hx : s.executing = true) (hf : s.FetchOk) (e : DecodeError) (hd : decode s.wordAtPc = .error e)
      (h : t = { s with executing := false }.raise .illegalOpcode)
  | fetchFailed (hx : s.executing = true) (hf : ¬ s.FetchOk) (h : t = (s.raise .invalidMemoryAccess).advance)

/-- "a zero word (an all-NOP-opcode word)" (R35). -/
theorem decode_zero : decode 0 = .ok (.nop 0 0 0) := rfl

/-- Inversion of `step`. -/
theorem step_next {s t : State} (h : step s = .next t) : StepEffect s t := by
  unfold step at h
  split at h
  · rename_i hx
    by_cases hf : s.FetchOk
    · rw [fetch_ok hf] at h
      split at h
      · exact .runs hx hf _ ‹_› (exec_next h)
      · exact .illegal hx hf _ ‹_› (Host.Outcome.next.inj h).symm
    · rw [fetch_failed hf] at h
      simp only [decode_zero] at h
      exact .fetchFailed hx hf (Host.Outcome.next.inj h).symm
  · exact .halted (by simp_all) (Host.Outcome.next.inj h).symm

end Sys2Proof.Machine
end

