-- ==== Sys2Proof/Tests/Slice0.lean ====
section
/-! SUPPORT. The model's own tests: words written out from the encodings of 30_encoding.md, the vectors of
95_test_vectors.md (each test names its vector), the well-formedness smoke test, and for every statement with
hypotheses a witness that meets them. -/

namespace Sys2Proof.Tests

open Sys2Proof.Machine

/-! ### Helpers -/

/-- A RUNNING machine of 0x100 bytes, all zero, null host. -/
def base : State where
  regs := Vector.replicate 37 0
  mem := []
  executing := true
  memSize := 0x100
  sxtSrcBits := .bits16
  replies := []
  events := []

/-- `base` with registers set. -/
def regs (ws : List (Reg × Word)) : State := base.setRegs ws

/-- What a result shows of its next state. -/
def after {α : Type} (r : Result) (f : State → α) : Option α :=
  match r with
  | .next t => some (f t)
  | .fault _ => none
  | .refused _ => none

/-- One step of `s` with the word `w` at its PC. -/
def run (s : State) (w : Nat) : Result := step (s.withFetchWord 32 w)

/-- `x[r]` and PC after one step. -/
def regPc (r : Reg) (s : State) (w : Nat) : Option (Word × Word) := after (run s w) fun t => (t.reg r, t.pc)

/-- A host whose callback halts. -/
def strict : HostReply := ⟨[], [], true, 0⟩

/-! ### Every constructor's decoding, by a word written out from R55, R56 and R54 -/

theorem test_decode_arith :
    decodeTableWord 32 0x00FFEEDD = some (.nop 0xFF 0xEE 0xDD) ∧
    decodeTableWord 32 0x01020001 = some (.add 2 0 1) ∧
    decodeTableWord 32 0x02010103 = some (.sub 1 1 3) ∧
    decodeTableWord 32 0x03030102 = some (.and 3 1 2) ∧
    decodeTableWord 32 0x04030102 = some (.orr 3 1 2) ∧
    decodeTableWord 32 0x05030102 = some (.xor 3 1 2) ∧
    decodeTableWord 32 0x060102AA = some (.not 1 2 0xAA) ∧
    decodeTableWord 32 0x07010203 = some (.lsh 1 2 3) ∧
    decodeTableWord 32 0x08010203 = some (.ash 1 2 3) ∧
    decodeTableWord 32 0x09010203 = some (.tcu 1 2 3) ∧
    decodeTableWord 32 0x0A010203 = some (.tcs 1 2 3) := by decide

theorem test_encode_arith :
    encode (.nop 0xFF 0xEE 0xDD) = 0x00FFEEDD ∧
    encode (.add 2 0 1) = 0x01020001 ∧
    encode (.sub 1 1 3) = 0x02010103 ∧
    encode (.and 3 1 2) = 0x03030102 ∧
    encode (.orr 3 1 2) = 0x04030102 ∧
    encode (.xor 3 1 2) = 0x05030102 ∧
    encode (.not 1 2 0xAA) = 0x060102AA ∧
    encode (.lsh 1 2 3) = 0x07010203 ∧
    encode (.ash 1 2 3) = 0x08010203 ∧
    encode (.tcu 1 2 3) = 0x09010203 ∧
    encode (.tcs 1 2 3) = 0x0A010203 := by decide

theorem test_decode_move_memory :
    decodeTableWord 32 0x0B01EFBE = some (.set 1 0xBEEF) ∧
    decodeTableWord 32 0x0C010200 = some (.mov 1 2 0) ∧
    decodeTableWord 32 0x0D0102FC = some (.ldw 1 2 0xFC) ∧
    decodeTableWord 32 0x0E060500 = some (.stw 6 5 0) ∧
    decodeTableWord 32 0x0F080501 = some (.ldb 8 5 1) ∧
    decodeTableWord 32 0x1001000C = some (.stb 1 0 12) := by decide

theorem test_encode_move_memory :
    encode (.set 1 0xBEEF) = 0x0B01EFBE ∧
    encode (.mov 1 2 0) = 0x0C010200 ∧
    encode (.ldw 1 2 0xFC) = 0x0D0102FC ∧
    encode (.stw 6 5 0) = 0x0E060500 ∧
    encode (.ldb 8 5 1) = 0x0F080501 ∧
    encode (.stb 1 0 12) = 0x1001000C := by decide

theorem test_decode_control :
    decodeTableWord 32 0x20EFCDAB = some (.jmi 0xABCDEF) ∧
    decodeTableWord 32 0x21040102 = some (.jmp 4 1 2) ∧
    decodeTableWord 32 0x24020105 = some (.bve 2 1 5) ∧
    decodeTableWord 32 0x25020105 = some (.bvn 2 1 5) ∧
    decodeTableWord 32 0x2A040506 = some (.cal 4 5 6) ∧
    decodeTableWord 32 0x2B010203 = some (.ret 1 2 3) := by decide

theorem test_encode_control :
    encode (.jmi 0xABCDEF) = 0x20EFCDAB ∧
    encode (.jmp 4 1 2) = 0x21040102 ∧
    encode (.bve 2 1 5) = 0x24020105 ∧
    encode (.bvn 2 1 5) = 0x25020105 ∧
    encode (.cal 4 5 6) = 0x2A040506 ∧
    encode (.ret 1 2 3) = 0x2B010203 := by decide

theorem test_decode_muldiv_extended :
    decodeTableWord 32 0x30010203 = some (.mul 1 2 3) ∧
    decodeTableWord 32 0x31010203 = some (.div 1 2 3) ∧
    decodeTableWord 32 0x32010203 = some (.mod 1 2 3) ∧
    decodeTableWord 32 0x4001FF1C = some (.sia 1 0xFF 28) ∧
    decodeTableWord 32 0x4106ADDE = some (.sup 6 0xDEAD) ∧
    decodeTableWord 32 0x42010203 = some (.sxt 1 2 3) ∧
    decodeTableWord 32 0x43010205 = some (.seq 1 2 5) := by decide

theorem test_encode_muldiv_extended :
    encode (.mul 1 2 3) = 0x30010203 ∧
    encode (.div 1 2 3) = 0x31010203 ∧
    encode (.mod 1 2 3) = 0x32010203 ∧
    encode (.sia 1 0xFF 28) = 0x4001FF1C ∧
    encode (.sup 6 0xDEAD) = 0x4106ADDE ∧
    encode (.sxt 1 2 3) = 0x42010203 ∧
    encode (.seq 1 2 5) = 0x43010205 := by decide

theorem test_decode_system :
    decodeTableWord 32 0xF0341200 = some (.int 0x1234) ∧
    decodeTableWord 32 0xFD010203 = some (.snd 1 2 3) ∧
    decodeTableWord 32 0xFFABCDEF = some (.hlt 0xAB 0xCD 0xEF) := by decide

theorem test_encode_system :
    encode (.int 0x1234) = 0xF0341200 ∧
    encode (.snd 1 2 3) = 0xFD010203 ∧
    encode (.hlt 0xAB 0xCD 0xEF) = 0xFFABCDEF := by decide

/-- V-SYS-4: illegal opcode bytes, the ends of each range of R57. -/
theorem test_decode_illegal :
    ([0x11000000, 0x15FFFFFF, 0x1F000000, 0x22000000, 0x23000000, 0x26000000, 0x29000000, 0x2C000000, 0x2F000000,
      0x33000000, 0x3F000000, 0x44000000, 0xEF000000, 0xF1000000, 0xFC000000, 0xFE000000].all
      fun w => decodeTableWord 32 w == none) = true := by decide

/-! ### WellFormed: an ill-formed term for each register position, refused -/

theorem test_wf_refuses_three_registers :
    ([Instr.add 37 0 0, .add 0 37 0, .add 0 0 37, .sub 37 0 0, .sub 0 37 0, .sub 0 0 37, .and 37 0 0, .and 0 37 0,
      .and 0 0 37, .orr 37 0 0, .orr 0 37 0, .orr 0 0 37, .xor 37 0 0, .xor 0 37 0, .xor 0 0 37, .lsh 37 0 0,
      .lsh 0 37 0, .lsh 0 0 37, .ash 37 0 0, .ash 0 37 0, .ash 0 0 37, .tcu 37 0 0, .tcu 0 37 0, .tcu 0 0 37,
      .tcs 37 0 0, .tcs 0 37 0, .tcs 0 0 37, .mul 37 0 0, .mul 0 37 0, .mul 0 0 37, .div 37 0 0, .div 0 37 0,
      .div 0 0 37, .mod 37 0 0, .mod 0 37 0, .mod 0 0 37, .snd 37 0 0, .snd 0 37 0, .snd 0 0 37].all
      fun i => !i.wf) = true := by decide

theorem test_wf_refuses_two_registers :
    ([Instr.not 37 0 0, .not 0 255 0, .mov 37 0 0, .mov 0 255 0, .sxt 37 0 0, .sxt 0 255 0, .ldw 37 0 0, .ldw 0 255 0,
      .stw 37 0 0, .stw 0 255 0, .ldb 37 0 0, .ldb 0 255 0, .stb 37 0 0, .stb 0 255 0, .bve 37 0 0, .bve 0 255 0,
      .bvn 37 0 0, .bvn 0 255 0, .seq 37 0 0, .seq 0 255 0].all fun i => !i.wf) = true := by decide

theorem test_wf_refuses_one_register :
    ([Instr.set 37 0, .sup 37 0, .sia 37 0 0, .jmp 37 0 0, .cal 255 0 0].all fun i => !i.wf) = true := by decide

/-- The nearest accepted: 36, and 255 in positions that are no register (R56, R58). -/
theorem test_wf_accepts :
    ([Instr.add 36 36 36, .not 36 36 255, .set 36 0xFFFF, .ldw 36 36 255, .sia 36 255 255, .seq 36 36 255,
      .jmp 36 255 255, .jmi 0xFFFFFF, .int 0xFFFFFF, .nop 255 255 255, .hlt 255 255 255, .ret 255 255 255].all
      fun i => i.wf) = true := by decide

/-! ### Arithmetic and logic -/

/-- V-ALU-8. -/
theorem test_nop_ignores_bytes : after (run base 0x00FFFFFF) (fun t => (t.regs.set 32 0 == base.regs, t.pc)) = some (true, 4) := by decide

/-- V-ALU-1. -/
theorem test_add_wraps : regPc 3 (regs [(1, 0xFFFFFFFF), (2, 1)]) 0x01030102 =
    some (0, 4) := by decide

/-- V-ALU-13: reading the PC slot gives the instruction's own address. -/
theorem test_add_reads_pc : regPc 1 (regs [(32, 0x20)]) 0x01012000 =
    some (0x20, 0x24) := by decide

/-- V-ALU-4. -/
theorem test_sub_borrows : regPc 3 (regs [(1, 0x12345678), (2, 0x9ABCDEF0)]) 0x02030102 =
    some (0x77777788, 4) := by decide

/-- V-ALU-5. -/
theorem test_and : regPc 3 (regs [(1, 0xF0F0F0F0), (2, 0x0FF00FF0)]) 0x03030102 =
    some (0x00F000F0, 4) := by decide

/-- V-ALU-5. -/
theorem test_orr : regPc 3 (regs [(1, 0xF0F0F0F0), (2, 0x0FF00FF0)]) 0x04030102 =
    some (0xFFF0FFF0, 4) := by decide

/-- V-ALU-6, the dedicated test of D4. -/
theorem test_xor_no_fall_through : regPc 3 (regs [(1, 0xF0F0F0F0), (2, 0x0FF00FF0)]) 0x05030102 =
    some (0xFF00FF00, 4) := by decide

/-- V-ALU-7. -/
theorem test_not : regPc 1 (regs [(2, 0x0000FFFF)]) 0x06010200 =
    some (0xFFFF0000, 4) := by decide

/-- V-ALU-9. -/
theorem test_lsh : ([(0x80000001, 1, 2), (0x80000001, 0, 0x80000001), (0x80000001, 0xFFFFFFFF, 0x40000000), (0x80000001, 32, 0),
      (0x80000001, 0xFFFFFFE0, 0), (0x80000001, 0x80000000, 0), (1, 31, 0x80000000), (0x12345678, 4, 0x23456780),
      (0x12345678, 0xFFFFFFFC, 0x01234567)].all
      fun (v, c, r) => regPc 1 (regs [(2, v), (3, c)]) 0x07010203 == some (r, 4)) = true := by decide

/-- V-ALU-10. -/
theorem test_ash : ([(0x80000001, 1, 2), (0x80000001, 0xFFFFFFFF, 0xC0000000), (0x80000001, 32, 0),
      (0x80000001, 0xFFFFFFE0, 0xFFFFFFFF), (0x80000001, 0x80000000, 0xFFFFFFFF), (0x7FFFFFFF, 0xFFFFFFD8, 0),
      (0x12345678, 0xFFFFFFFC, 0x01234567)].all
      fun (v, c, r) => regPc 1 (regs [(2, v), (3, c)]) 0x08010203 == some (r, 4)) = true := by decide

/-- V-ALU-11. -/
theorem test_tcu : ([(1, 0xFFFFFFFF, 0xFFFFFFFF), (0xFFFFFFFF, 1, 1), (7, 7, 0)].all
      fun (a, b, r) => regPc 1 (regs [(2, a), (3, b)]) 0x09010203 == some (r, 4)) = true := by decide

/-- V-ALU-12. -/
theorem test_tcs : ([(1, 0xFFFFFFFF, 1), (0xFFFFFFFF, 1, 0xFFFFFFFF), (0x80000000, 0x7FFFFFFF, 0xFFFFFFFF), (7, 7, 0)].all
      fun (a, b, r) => regPc 1 (regs [(2, a), (3, b)]) 0x0A010203 == some (r, 4)) = true := by decide

/-- V-ALU-14: 37 is UNDEFINED, 36 is SP. -/
theorem test_undefined_register_faults : after (run base 0x01250000) (fun t => t.pc) = none ∧
    regPc 36 (regs [(0, 21)]) 0x01240000 = some (42, 4) := by decide

/-! ### Immediate, move, load, store -/

/-- V-MEM-1. -/
theorem test_set_replaces : regPc 1 (regs [(1, 0xAAAAAAAA)]) 0x0B01EFBE =
    some (0xBEEF, 4) := by decide

/-- V-MEM-2. -/
theorem test_mov_copies : regPc 1 (regs [(2, 0x12345678)]) 0x0C010200 =
    some (0x12345678, 4) := by decide

/-- V-MEM-2: `MOV pc, r1`. -/
theorem test_mov_to_pc_then_advances : regPc 1 (regs [(1, 0x40)]) 0x0C200100 =
    some (0x40, 0x44) := by decide

/-- V-MEM-3: the last word, and one byte further. -/
theorem test_ldw_bound : regPc 1 { regs [(2, 0xFC)] with mem := [(0xFC, 0x11), (0xFD, 0x22), (0xFE, 0x33), (0xFF, 0x44)] } 0x0D010200 =
      some (0x11223344, 4) ∧
    after (run (regs [(1, 0xAAAAAAAA), (2, 0xFD)]) 0x0D010200) (fun t => (t.reg 1, t.pc, t.executing, t.events)) =
      some (0xAAAAAAAA, 4, true, [.error .invalidMemoryAccess]) := by decide

/-- V-MEM-5: offset -4 from 0x10, and offset -1 from 0, which does not wrap. -/
theorem test_ldw_negative_offset : regPc 1 { regs [(2, 0x10)] with mem := [(0x0E, 1), (0x0F, 2)] } 0x0D0102FC = some (0x00000102, 4) ∧
    after (run (regs [(2, 0)]) 0x0D0102FF) (fun t => t.events) = some [.error .invalidMemoryAccess] := by decide

/-- V-MEM-4. -/
theorem test_stw_bound : after (run (regs [(1, 0xA1B2C3D4), (2, 0xFC)]) 0x0E010200) (fun t => t.mem.filter fun c => decide (4 ≤ c.1)) =
      some [(0xFC, 0xA1), (0xFD, 0xB2), (0xFE, 0xC3), (0xFF, 0xD4)] ∧
    after (run (regs [(1, 0xA1B2C3D4), (2, 0xFD)]) 0x0E010200)
      (fun t => (t.mem.filter fun c => decide (4 ≤ c.1), t.events)) = some ([], [.error .invalidMemoryAccess]) := by decide

/-- V-MEM-7. -/
theorem test_ldb_zero_extends : regPc 1 { regs [(2, 0x50)] with mem := [(0x50, 0x80)] } 0x0F010200 = some (0x80, 4) := by decide

/-- V-MEM-7: MEM_SIZE - 1 is read, MEM_SIZE is not. -/
theorem test_ldb_bound : after (run (regs [(2, 0xFF)]) 0x0F010200) (fun t => t.events) = some [] ∧
    after (run (regs [(2, 0x100)]) 0x0F010200) (fun t => t.events) = some [.error .invalidMemoryAccess] := by decide

/-- V-MEM-8, and writing zero unlists the byte. -/
theorem test_stb_low_byte : after (run (regs [(1, 0x12345678), (2, 0x50)]) 0x10010200) (fun t => t.mem.filter fun c => decide (4 ≤ c.1)) =
      some [(0x50, 0x78)] ∧
    after (run { regs [(1, 0x12345600), (2, 0x50)] with mem := [(0x50, 0x78)] } 0x10010200)
      (fun t => t.mem.filter fun c => decide (4 ≤ c.1)) = some [] := by decide

/-- V-MEM-6. -/
theorem test_misaligned_word : regPc 1 { regs [(2, 0x40)] with mem := [(0x41, 0xAD), (0x42, 0xBE), (0x43, 0xEF), (0x44, 0x99)] } 0x0D010201 =
      some (0xADBEEF99, 4) := by decide

/-- V-MEM-9 with MEM_SIZE = 0x40: PC = 0x3B is fetched, PC = 0x3C and PC = 0xFFFFFFFE are not. -/
theorem test_fetch_bound : after (step { regs [(32, 0x3B)] with memSize := 0x40, mem := [(0x3B, 0x21)] }) (fun t => (t.pc, t.events)) =
      some (0, []) ∧
    after (step { regs [(32, 0x3C)] with memSize := 0x40 }) (fun t => (t.pc, t.events)) =
      some (0x40, [.error .invalidMemoryAccess]) ∧
    after (step { regs [(32, 0xFFFFFFFE)] with memSize := 0x40 }) (fun t => (t.pc, t.events)) =
      some (2, [.error .invalidMemoryAccess]) := by decide

/-! ### Control transfer -/

/-- V-CTL-1. -/
theorem test_jmi : after (run base 0x20EFCDAB) (fun t => t.pc) = some 0x00ABCDEF := by decide

/-- V-CTL-2. -/
theorem test_jmp : after (run (regs [(4, 0x200)]) 0x21040000) (fun t => t.pc) = some 0x200 ∧
    after (run (regs [(32, 0x30)]) 0x21200000) (fun t => t.pc) = some 0x30 := by decide

/-- V-CTL-3, V-CTL-4. -/
theorem test_bve : ([(0x24020100, 0, 0x40), (0x24020100, 1, 0x1C), (0x24020100, 0x100, 0x1C), (0x240201FF, 0xFF, 0x40),
      (0x240201FF, 0xFFFFFFFF, 0x1C)].all
      fun (w, v, pc) => after (run (regs [(32, 0x18), (2, 0x40), (1, v)]) w) (fun t => t.pc) == some pc) = true := by decide

/-- V-CTL-5. -/
theorem test_bvn : ([(4, 0x10), (0, 0x1C), (0x100, 0x10)].all
      fun (v, pc) => after (run (regs [(32, 0x18), (2, 0x10), (1, v)]) 0x25020100) (fun t => t.pc) == some pc) = true := by decide

/-- V-CTL-7. -/
theorem test_cal : regPc 33 (regs [(32, 8), (4, 0x14), (33, 0x99)]) 0x2A040000 = some (0x0C, 0x14) ∧
    regPc 33 (regs [(32, 8), (33, 0x99)]) 0x2A210000 = some (0x0C, 0x0C) := by decide

/-- V-CTL-8, V-CTL-9. -/
theorem test_ret : after (run (regs [(33, 0x0C)]) 0x2B000000) (fun t => (t.pc, t.reg 33, t.executing)) = some (0x0C, 0, true) ∧
    after (run (regs [(32, 0x24)]) 0x2B000000) (fun t => (t.pc, t.reg 33, t.executing, t.events)) =
      some (0x24, 0, false, []) := by decide

/-! ### Multiply, divide, extended -/

/-- V-MD-1. -/
theorem test_mul : ([(6, 7, 42), (0x00010000, 0x00010000, 0), (0xFFFFFFFF, 0xFFFFFFFF, 1), (0x12345678, 0x9ABCDEF0, 0x242D2080)].all
      fun (a, b, r) => regPc 1 (regs [(2, a), (3, b)]) 0x30010203 == some (r, 4)) = true := by decide

/-- V-MD-2. -/
theorem test_div : ([(7, 2, 3), (0xFFFFFFFE, 2, 0x7FFFFFFF), (0x80000000, 0xFFFFFFFF, 0), (5, 7, 0)].all
      fun (a, b, r) => regPc 1 (regs [(2, a), (3, b)]) 0x31010203 == some (r, 4)) = true := by decide

/-- V-MD-3. -/
theorem test_mod : ([(7, 2, 1), (0xFFFFFFFF, 0x10, 0xF), (0x80000000, 0xFFFFFFFF, 0x80000000), (5, 7, 5)].all
      fun (a, b, r) => regPc 1 (regs [(2, a), (3, b)]) 0x32010203 == some (r, 4)) = true := by decide

/-- V-MD-4, DIV and MOD. -/
theorem test_division_by_zero : ([0x31010203, 0x32010203].all fun w =>
      after (run (regs [(1, 0xAAAAAAAA), (2, 7)]) w) (fun t => (t.reg 1, t.pc, t.executing, t.events)) ==
        some (0xAAAAAAAA, 4, true, [.error .divisionByZero])) = true := by decide

/-- V-MD-5. -/
theorem test_sia : ([(0x4001FF1C, 0x10, 0xF0000010), (0x40010100, 0xFFFFFFFF, 0), (0x4001031F, 0, 0x80000000), (0x40010120, 5, 5),
      (0x400101FF, 5, 5)].all fun (w, v, r) => regPc 1 (regs [(1, v)]) w == some (r, 4)) = true := by decide

/-- V-MD-6. -/
theorem test_sup : regPc 6 (regs [(6, 0x1234BEEF)]) 0x4106ADDE = some (0xDEADBEEF, 4) ∧
    regPc 6 (regs [(6, 0xFFFFFFFF)]) 0x41060000 = some (0x0000FFFF, 4) := by decide

/-- V-MD-7, the three widths. -/
theorem test_sxt : ([(Config.SxtWidth.bits8, 0x80, 0xFFFFFF80), (.bits8, 0x17F, 0x7F), (.bits8, 0x12345678, 0x78),
      (.bits16, 0x8000, 0xFFFF8000), (.bits16, 0x80, 0x80), (.bits16, 0x12345678, 0x5678),
      (.bits32, 0x89ABCDEF, 0x89ABCDEF)].all
      fun (n, v, r) => regPc 1 { regs [(2, v)] with sxtSrcBits := n } 0x42010200 == some (r, 4)) = true := by decide

/-- V-MD-8. -/
theorem test_seq : ([(5, 1), (6, 0), (0x105, 0)].all fun (v, r) => regPc 1 (regs [(2, v)]) 0x43010205 == some (r, 4)) = true := by decide

/-! ### System, illegal, halted -/

/-- V-SYS-1. -/
theorem test_int : after (run (regs [(32, 0x20)]) 0xF0341200) (fun t => (t.pc, t.events)) = some (0x24, [.interrupt 0x1234]) ∧
    after (run base 0xF0FFFFFF) (fun t => t.events) = some [.interrupt 0x00FFFFFF] := by decide

/-- V-SYS-2: the null host, and one that writes r3 and returns 9. -/
theorem test_snd : after (run (regs [(2, 1), (3, 0x41)]) 0xFD010203) (fun t => (t.reg 3, t.pc, t.events)) =
      some (0x41, 4, [.device 0 1 0x41]) ∧
    after (run { regs [(2, 1), (3, 0x41)] with replies := [⟨[(3, 0x7A)], [], false, 9⟩] } 0xFD010203)
      (fun t => (t.reg 3, t.pc, t.replies)) = some (0x7A, 4, []) := by decide

/-- V-SYS-3. -/
theorem test_hlt : after (run (regs [(32, 0x0C)]) 0xFFABCDEF) (fun t => (t.executing, t.pc, t.events)) = some (false, 0x0C, []) := by decide

/-- S2, and a host that would keep the machine running cannot (R123). -/
theorem test_illegal_opcode : after (run base 0x15000000) (fun t => (t.executing, t.pc, t.events)) = some (false, 0, [.error .illegalOpcode]) ∧
    after (run { base with replies := [⟨[], [], false, 0⟩] } 0x15000000) (fun t => t.executing) = some false := by decide

/-- V-SYS-5: the callback clears executing, PC still advances. -/
theorem test_strict_host : after (run { regs [(32, 8), (2, 0xFD)] with replies := [strict] } 0x0D010200) (fun t => (t.executing, t.pc)) =
      some (false, 0x0C) := by decide

/-- V-SYS-6. -/
theorem test_halted_step :
    after (step { regs [(1, 7)] with executing := false })
      (fun t => t == { regs [(1, 7)] with executing := false }) = some true := by decide

/-- R137: the advance applies to the PC the callback left, and a write outside memory is dropped (log 20). -/
theorem test_callback_moves_pc : after (run { base with replies := [⟨[(32, 0x80)], [(0x90, 5), (0x100, 6)], false, 0⟩] } 0xF0000000)
      (fun t => (t.pc, t.mem.filter fun c => decide (4 ≤ c.1))) = some (0x84, [(0x90, 5)]) := by decide

/-- R130. -/
theorem test_error_codes : ErrorKind.illegalOpcode.code = 0 ∧ ErrorKind.invalidMemoryAccess.code = 1 ∧ ErrorKind.divisionByZero.code = 2 := by decide

/-- V-RST-2 with MEM_SIZE = 0x40. -/
theorem test_init_load : after ({ regs [(1, 7)] with memSize := 0x40 }.init.load [0xFF, 0, 0, 0])
      (fun t => (t.mem, t.pc, t.reg 33, t.reg 36, t.reg 1, t.executing)) = some ([(0, 0xFF)], 0, 0, 0x3F, 0, true) := by decide

/-- V-RST-3. -/
theorem test_load_too_long : after ({ base with memSize := 3 }.load [1, 2, 3, 4]) (fun t => t.pc) = none ∧
    after ({ base with memSize := 3 }.load [1, 2, 3]) (fun t => t.pc) = some 0 := by decide

/-- The first instruction after reset: `SET r0, #5` of S1. -/
theorem test_reset_runs_a_placed_word : after (step (State.reset.withFetchWord 32 0x0B000500)) (fun t => (t.reg 0, t.pc)) = some (5, 4) := by decide

/-! ### Witnesses: for every statement with hypotheses, a state and operands that meet them -/

/-- `base` with a word at PC. -/
def placed (w : Nat) : State := base.withFetchWord 32 w

theorem base_inv : base.Inv := ⟨by decide, by decide, by decide, by decide⟩

theorem placed_inv (w : Nat) (h : (placed w).mem.wf) (h' : ∀ c ∈ (placed w).mem, c.1 < 0x100) : (placed w).Inv :=
  ⟨h, h', by show 1 ≤ 0x100; decide, by show 0x100 ≤ Config.maxMemSize; decide⟩

theorem witness_DecodeAndEncodeAgree :
    decode 0xFFABCDEF = .ok (.hlt 0xAB 0xCD 0xEF) := rfl

theorem witness_MixedWidthsSeeBigEndian :
    (0 : Nat) < 4 ∧ (3 : Nat) < 4 := by decide

theorem witness_AddAndSubWrap :
    regOk 36 = true ∧ regOk 0 = true ∧ regOk 32 = true := by decide

theorem witness_XorStandsAlone :
    regOk 36 = true ∧ regOk 0 = true ∧ regOk 32 = true := by decide

theorem witness_MultiplyKeepsTheLowHalf :
    regOk 36 = true ∧ regOk 0 = true ∧ regOk 32 = true := by decide

theorem witness_SndInvokesTheDeviceCallback :
    regOk 36 = true ∧ regOk 0 = true ∧ regOk 32 = true := by decide

theorem witness_AndOrrNotAreBitwise :
    regOk 36 = true ∧ regOk 0 = true ∧ regOk 32 = true ∧ (0 : Nat) < 32 ∧ (31 : Nat) < 32 := by decide

/-- Both clauses at the ends of their ranges: counts 0 and 2^31 - 1, -1 and -2^31. -/
theorem witness_LogicalShiftFollowsTheFormula :
    regOk 36 = true ∧ regOk 0 = true ∧ regOk 32 = true ∧
    0 ≤ (base.reg 3).toInt ∧ 0 ≤ ((regs [(3, 0x7FFFFFFF)]).reg 3).toInt ∧
    ((regs [(3, 0xFFFFFFFF)]).reg 3).toInt < 0 ∧ ((regs [(3, 0x80000000)]).reg 3).toInt < 0 := by decide

theorem witness_ArithmeticShiftFollowsTheFormula :
    regOk 36 = true ∧ regOk 0 = true ∧ regOk 32 = true ∧
    0 ≤ (base.reg 3).toInt ∧ 0 ≤ ((regs [(3, 0x7FFFFFFF)]).reg 3).toInt ∧
    ((regs [(3, 0xFFFFFFFF)]).reg 3).toInt < 0 ∧ ((regs [(3, 0x80000000)]).reg 3).toInt < 0 := by decide

theorem witness_ThreeWayCompares :
    regOk 1 = true ∧ regOk 2 = true ∧ regOk 3 = true ∧
    ((regs [(2, 0xFFFFFFFF)]).reg 2).toNat > ((regs [(2, 0xFFFFFFFF)]).reg 3).toNat ∧
    (base.reg 2).toNat = (base.reg 3).toNat ∧
    ((regs [(3, 1)]).reg 2).toNat < ((regs [(3, 1)]).reg 3).toNat ∧
    ((regs [(3, 0x80000000)]).reg 2).toInt > ((regs [(3, 0x80000000)]).reg 3).toInt ∧
    (base.reg 2).toInt = (base.reg 3).toInt ∧ ((regs [(3, 1)]).reg 2).toInt < ((regs [(3, 1)]).reg 3).toInt := by decide

theorem witness_SetMovSup :
    regOk 36 = true ∧ regOk 0 = true ∧ (0xFFFF : BitVec 16).toNat = (0xFF : Byte).toNat + (0xFF : Byte).toNat * 2 ^ 8 := by decide

/-- The last word and the last byte of memory, and address 0. -/
theorem witness_LoadsInBounds :
    regOk 1 = true ∧ regOk 2 = true ∧
    InBounds (regs [(2, 0xFC)]).memSize (effAddr (regs [(2, 0xFC)]) 2 0) 4 ∧
    InBounds (regs [(2, 0x100)]).memSize (effAddr (regs [(2, 0x100)]) 2 0xFF) 1 ∧
    InBounds base.memSize (effAddr base 2 0) 4 ∧ InBounds base.memSize (effAddr base 2 0) 1 := by
  unfold InBounds; decide

theorem witness_StoresInBounds :
    regOk 1 = true ∧ regOk 2 = true ∧
    InBounds (regs [(2, 0xFC)]).memSize (effAddr (regs [(2, 0xFC)]) 2 0) 4 ∧
    InBounds (regs [(2, 0x100)]).memSize (effAddr (regs [(2, 0x100)]) 2 0xFF) 1 ∧
    InBounds base.memSize (effAddr base 2 0) 4 ∧ InBounds base.memSize (effAddr base 2 0) 1 := by
  unfold InBounds; decide

/-- One byte too far, MEM_SIZE itself, and -1. -/
theorem witness_FailedAccessIsSkippedAndReported :
    regOk 1 = true ∧ regOk 2 = true ∧
    ¬ InBounds (regs [(2, 0xFD)]).memSize (effAddr (regs [(2, 0xFD)]) 2 0) 4 ∧
    ¬ InBounds (regs [(2, 0x100)]).memSize (effAddr (regs [(2, 0x100)]) 2 0) 1 ∧
    ¬ InBounds base.memSize (effAddr base 2 0xFF) 4 ∧ ¬ InBounds base.memSize (effAddr base 2 0xFF) 1 := by
  unfold InBounds; decide

theorem witness_StoredWordIsTheNextFetched :
    regOk 1 = true ∧ regOk 2 = true ∧ (regs [(32, 0xF7), (2, 0xFB)]).pc.toNat + 8 < 0x100 ∧
    base.memSize ≤ Config.maxMemSize ∧
    effAddr (regs [(32, 0xF7), (2, 0xFB)]) 2 0 = ((regs [(32, 0xF7), (2, 0xFB)]).pc.toNat : Int) + 4 := by decide

theorem witness_UnconditionalJumps :
    regOk 36 = true ∧ (0xABCDEF : BitVec 24).toNat =
      (0xEF : Byte).toNat + (0xCD : Byte).toNat * 2 ^ 8 + (0xAB : Byte).toNat * 2 ^ 16 := by decide

theorem witness_ConditionalBranches :
    regOk 2 = true ∧ regOk 1 = true ∧ ((regs [(1, 255)]).reg 1).toNat = (255 : Byte).toNat ∧
    ((regs [(1, 256)]).reg 1).toNat ≠ (0 : Byte).toNat := by decide

theorem witness_CallLinksThenJumps :
    regOk 33 = true ∧ regOk 36 = true ∧ (36 : Reg) ≠ Slot.lr ∧ (33 : Reg) = Slot.lr := by decide

theorem witness_ReturnJumpsOrHalts :
    base.reg Slot.lr = 0 ∧ (regs [(33, 1)]).reg Slot.lr ≠ 0 := by decide

theorem witness_ReturnComesBackBehindTheCall :
    regOk 4 = true ∧ (regs [(32, 0xFFFFFFFB)]).pc.toNat + 4 < 2 ^ 32 := by decide

theorem witness_DivideAndRemainder :
    regOk 36 = true ∧ regOk 0 = true ∧ regOk 32 = true ∧ (regs [(3, 1)]).reg 3 ≠ 0 := by decide

theorem witness_DivisionByZeroIsReported :
    regOk 36 = true ∧ regOk 0 = true ∧ regOk 32 = true ∧ base.reg 3 = 0 := by decide

theorem witness_ShiftImmediateAdd :
    regOk 36 = true ∧ (31 : Byte).toNat < 32 ∧ 32 ≤ (32 : Byte).toNat := by decide

theorem witness_SignExtendFromTheParameter :
    regOk 36 = true ∧ regOk 0 = true := by decide

theorem witness_SetIfEqual :
    regOk 1 = true ∧ regOk 2 = true ∧ ((regs [(2, 255)]).reg 2).toNat = (255 : Byte).toNat ∧
    ((regs [(2, 256)]).reg 2).toNat ≠ (0 : Byte).toNat := by decide

theorem witness_IntInvokesTheInterruptCallback :
    (0x001234 : BitVec 24).toNat = (0x34 : Byte).toNat + (0x12 : Byte).toNat * 2 ^ 8 + (0 : Byte).toNat * 2 ^ 16 := by decide

theorem witness_IllegalOpcodeHalts :
    (placed 0x15000000).executing = true ∧ (placed 0x15000000).FetchOk ∧
    decode (placed 0x15000000).wordAtPc = .error (.illegalOpcode 0x15) ∧ (placed 0x15000000).replies = [] := by
  unfold State.FetchOk; decide

theorem witness_RepliesReachEveryAllowedState :
    base.Inv ∧ State.Inv { base with mem := [(0xFF, 7)], executing := false } ∧
    State.memSize { base with mem := [(0xFF, 7)], executing := false } = base.memSize := ⟨base_inv, ⟨by decide, by decide, by decide, by decide⟩, rfl⟩

theorem witness_FaultExactlyOnUndefinedRegister :
    (Instr.bve 37 0 0).wf = false ∧ (Instr.bve 36 0 255).wf = true := by decide

theorem witness_StepRunsTheDecodedInstruction :
    (placed 0x01020001).executing = true ∧ (placed 0x01020001).FetchOk ∧
    decode (placed 0x01020001).wordAtPc = .ok (.add 2 0 1) := by
  unfold State.FetchOk; decide

theorem witness_FailedFetchRunsNop :
    (regs [(32, 0xFC)]).executing = true ∧ ¬ (regs [(32, 0xFC)]).FetchOk := by
  unfold State.FetchOk; decide

/-- The rows of the table: load, a HALTED step, HLT, RET with LR = 0, an illegal opcode, a callback that halts, and
a step that goes on. -/
theorem witness_RunningAndHaltedTransitions :
    after (base.load []) State.executing = some true ∧ State.executing { base with executing := false } = false ∧
    after (step (placed 0xFF000000)) State.executing = some false ∧
    after (step (placed 0x2B000000)) State.executing = some false ∧
    after (step (placed 0x15000000)) State.executing = some false ∧
    after (step { placed 0xF0000000 with replies := [strict] }) State.executing = some false ∧
    after (step (placed 0)) State.executing = some true := by decide

theorem witness_AtMostOneCallbackInAStep :
    after (step (placed 0)) State.events = some [] ∧
    after (step { placed 0xF0000000 with replies := [strict, strict] }) (fun t => (t.events.length, t.replies.length)) =
      some (1, 1) := by decide

theorem witness_ParametersNeverChange :
    after (step (placed 0xF0000000)) State.memSize = some 0x100 := by decide

theorem witness_StepKeepsTheInvariant :
    (placed 0x0E010200).Inv ∧ after (step (placed 0x0E010200)) State.executing = some true := 
  ⟨placed_inv _ (by decide) (by decide), by decide⟩

/-- The first and the last byte of an STW, and the byte of an STB, at the end of memory. -/
theorem witness_MemoryChangesOnlyByStores :
    after (step ((placed 0x0E010200).setRegs [(1, 0x11223344), (2, 0xFC)]))
      (fun t => (t.events, t.mem.read 0xFC, t.mem.read 0xFF)) = some ([], 0x11, 0x44) ∧
    after (step ((placed 0x10010200).setRegs [(1, 0x55), (2, 0xFF)])) (fun t => (t.events, t.mem.read 0xFF)) =
      some ([], 0x55) ∧ (placed 0x0E010200).mem.read 0xFC = 0 ∧ (placed 0x10010200).mem.read 0xFF = 0 := by decide

/-- A destination, LR by CAL and LR by RET. -/
theorem witness_RegistersChangeOnlyAsNamed :
    after (step (placed 0x0B240100)) (fun t => (t.events, t.reg 36)) = some ([], 1) ∧
    after (step (placed 0x2A040000)) (fun t => (t.events, t.reg 33)) = some ([], 4) ∧
    after (step ((placed 0x2B000000).setReg 33 8)) (fun t => (t.events, t.reg 33)) = some ([], 0) ∧
    base.reg 36 = 0 ∧ base.reg 33 = 0 := by decide

theorem witness_PastEventsNeverInfluence :
    after (step (placed 0xF0000000)) State.events = some [.interrupt 0] ∧
    (match step (placed 0x01250000) with | .fault f => decide (f = .undefinedRegister) | _ => false) = true := by decide

/-- A program as long as memory, and the shortest memory. -/
theorem witness_LoadInstallsTheProgram :
    1 ≤ State.memSize { base with memSize := 1 } ∧ State.memSize { base with memSize := 1 } ≤ Config.maxMemSize ∧
    [(0xFF : Byte)].length ≤ State.memSize { base with memSize := 1 } := by decide

theorem witness_LoadRefusesALongProgram :
    State.memSize { base with memSize := 1 } < [(0xFF : Byte), 0].length := by decide

theorem witness_ResetIsInitThenLoad :
    State.reset.memSize = memSizeAtReset ∧ State.reset.sxtSrcBits = sxtSrcBitsAtReset ∧ State.reset.replies = [] ∧
    State.reset.events = [] := ⟨rfl, rfl, rfl, rfl⟩

end Sys2Proof.Tests
end

namespace Sys2Proof.Machine

/-! ### Words as numbers: the four bytes in base 256, most significant first (R31, R51) -/

/-- Putting a high part before a low part of `n` bits multiplies it by `2 ^ n`. -/
theorem toNat_append_eq_add {m n : Nat} (x : BitVec m) (y : BitVec n) :
    (x ++ y).toNat = x.toNat * 2 ^ n + y.toNat := by
  rw [BitVec.toNat_append, ← Nat.shiftLeft_add_eq_or_of_lt y.isLt, Nat.shiftLeft_eq]

theorem Memory.toNat_readWord (m : Memory) (a : Nat) :
    (m.readWord a).toNat =
      (m.read a).toNat * 2 ^ 24 + (m.read (a + 1)).toNat * 2 ^ 16 + (m.read (a + 2)).toNat * 2 ^ 8 +
        (m.read (a + 3)).toNat := by
  simp only [Memory.readWord, toNat_append_eq_add]
  omega

theorem toNat_zext8 (b : Byte) : (zext8 b).toNat = b.toNat :=
  BitVec.toNat_setWidth_of_le (by decide)

/-- A lane is a digit of the word in base 256; `shift` is the place of its lowest bit. -/
theorem toNat_byteLane (w : Word) (shift : Nat) :
    (w.extractLsb' shift 8).toNat = w.toNat / 2 ^ shift % 2 ^ 8 := by
  rw [BitVec.extractLsb'_toNat, Nat.shiftRight_eq_div_pow]

theorem toNat_lanes_op (w : Word) : (lanes w).op.toNat = w.toNat / 2 ^ 24 := by
  have hw := w.isLt
  have hlane := toNat_byteLane w 24
  simp only [lanes]
  omega

theorem toNat_lanes_a1 (w : Word) : (lanes w).a1.toNat = w.toNat / 2 ^ 16 % 2 ^ 8 := toNat_byteLane w 16

theorem toNat_lanes_a2 (w : Word) : (lanes w).a2.toNat = w.toNat / 2 ^ 8 % 2 ^ 8 := toNat_byteLane w 8

theorem toNat_lanes_a3 (w : Word) : (lanes w).a3.toNat = w.toNat % 2 ^ 8 := by
  have hlane := toNat_byteLane w 0
  rwa [pow_zero, Nat.div_one] at hlane

/-! ### A word write leaves every other byte alone (R32) -/

theorem Memory.read_writeWord_outside (m : Memory) {a c : Nat} (v : Word) (h : c < a ∨ a + 4 ≤ c) :
    (m.writeWord a v).read c = m.read c := by
  rw [Memory.read_writeWord, if_neg (by omega), if_neg (by omega), if_neg (by omega), if_neg (by omega)]

/-! ### An access out of bounds (R36) -/

/-- The error callback runs once on the state, and PC advances from where it left it. -/
theorem failedAccess_spec (s : State) :
    ∃ u t, failedAccess s = .next t ∧ HostActs (.error .invalidMemoryAccess) s u ∧ AdvancesOnly u t :=
  ⟨s.raise .invalidMemoryAccess, _, rfl, callHost_acts s _, advance_advancesOnly _⟩

/-- The shape the four memory instructions share: out of bounds, the transfer `done` is never reached. -/
theorem guardedAccess_outOfBounds {r rbase : Reg} {off8 : Byte} {s : State} {n : Nat} {done : Result}
    (hr : regOk r = true) (hbase : regOk rbase = true)
    (hout : ¬ InBounds s.memSize (effAddr s rbase off8) n) :
    guardRegs [r, rbase] (if s.inBounds (s.ea rbase off8) n then done else failedAccess s) = failedAccess s := by
  rw [guardRegs_ok (by simp [hr, hbase]), ea_eq, if_neg (by rwa [inBounds_iff])]

/-- LDW and STW out of bounds (4 bytes). -/
theorem exec_wordAccess_outOfBounds {r rbase : Reg} {off8 : Byte} {s : State} {i : Instr}
    (hi : i = .ldw r rbase off8 ∨ i = .stw r rbase off8) (hr : regOk r = true) (hbase : regOk rbase = true)
    (hout : ¬ InBounds s.memSize (effAddr s rbase off8) 4) : exec i s = failedAccess s := by
  obtain rfl | rfl := hi
  · exact guardedAccess_outOfBounds hr hbase hout
  · exact guardedAccess_outOfBounds hr hbase hout

/-- LDB and STB out of bounds (1 byte). -/
theorem exec_byteAccess_outOfBounds {r rbase : Reg} {off8 : Byte} {s : State} {i : Instr}
    (hi : i = .ldb r rbase off8 ∨ i = .stb r rbase off8) (hr : regOk r = true) (hbase : regOk rbase = true)
    (hout : ¬ InBounds s.memSize (effAddr s rbase off8) 1) : exec i s = failedAccess s := by
  obtain rfl | rfl := hi
  · exact guardedAccess_outOfBounds hr hbase hout
  · exact guardedAccess_outOfBounds hr hbase hout

/-! ### The statements of 20_memory.md -/

/-- Settles O7: a byte write by `Memory.read_write`, a word write by its four lanes as digits of the word. -/
theorem memWriteIsBigEndian : Obligations.MemWriteIsBigEndian := by
  intro m a v
  refine ⟨?_, fun c hc => Memory.read_write_ne _ _ _ _ hc, ?_, ?_, ?_, ?_,
    fun c hc => Memory.read_writeWord_outside m v hc⟩
  · rw [Memory.read_write_same, BitVec.toNat_setWidth]
  · simp [Memory.read_writeWord, toNat_lanes_op]
  · simp [Memory.read_writeWord, toNat_lanes_a1]
  · simp [Memory.read_writeWord, toNat_lanes_a2]
  · simp [Memory.read_writeWord, toNat_lanes_a3]

/-- Settles O19: out of bounds, all four instructions end in `failedAccess`. -/
theorem failedAccessIsSkippedAndReported : Obligations.FailedAccessIsSkippedAndReported := by
  intro r rbase off8 s hr hbase
  constructor
  · intro hout i hi
    rw [exec_wordAccess_outOfBounds hi hr hbase hout]
    exact failedAccess_spec s
  · intro hout i hi
    rw [exec_byteAccess_outOfBounds hi hr hbase hout]
    exact failedAccess_spec s

/-- Settles O6: zero extension keeps the number, and a word read puts four bytes together. -/
theorem memReadIsBigEndian : Obligations.MemReadIsBigEndian := fun m a =>
  ⟨toNat_zext8 (m.read a), Memory.toNat_readWord m a⟩

end Sys2Proof.Machine

namespace Sys2Proof.Machine

/-! ### The four lanes of a word (30_encoding.md) -/

/-- The encoding formula of R52: the lanes are the word's digits in base 256. -/
theorem toNat_word (l : Lanes) :
    l.word.toNat = l.op.toNat * 2 ^ 24 + l.a1.toNat * 2 ^ 16 + l.a2.toNat * 2 ^ 8 + l.a3.toNat := by
  simp only [Lanes.word, toNat_append_eq_add]
  omega

/-- Putting the lanes of a word together gives the word back (R52): a number is the sum of its digits in base 256. The
other direction is `Laws.lanes_word`. -/
@[simp] theorem word_lanes (w : Word) : (lanes w).word = w := by
  apply BitVec.eq_of_toNat_eq
  rw [toNat_word, toNat_lanes_op, toNat_lanes_a1, toNat_lanes_a2, toNat_lanes_a3]
  omega

/-! ### The statements of 30_encoding.md -/

/-- Settles O2: the formula, and one lemma for each direction of the round trip. -/
theorem lanesRoundTrip : Obligations.LanesRoundTrip := ⟨toNat_word, word_lanes, Laws.lanes_word⟩

/-- Settles O1: each lane is its digit of the word in base 256. -/
theorem lanesSplitTheWord : Obligations.LanesSplitTheWord := fun w =>
  ⟨toNat_lanes_op w, toNat_lanes_a1 w, toNat_lanes_a2 w, toNat_lanes_a3 w⟩

end Sys2Proof.Machine

namespace Sys2Proof.Machine

/-! ### The shape register instructions share: an opcode byte, a guard, one register write (40_arith_logic.md) -/

/-- An encoding clause is a case of the opcode map (R51, R55). -/
theorem encodes_of_decodeLanes {op a1 a2 a3 : Byte} {i : Instr} (h : decodeLanes ⟨op, a1, a2, a3⟩ = .ok i) :
    Encodes op a1 a2 a3 i := (Laws.decode_word ⟨op, a1, a2, a3⟩).trans h

/-- An instruction whose meaning is a guarded register write answers with that write, whose value has any property the
written word has. -/
theorem exec_of_guardedWrite {i : Instr} {rs : List Reg} {rd : Reg} {v : Word} {s : State} {P : Word → Prop}
    (hexec : exec i s = guardRegs rs (writeAdvance rd v s)) (hrs : rs.all regOk = true) (hrd : rd ∈ rs) (hv : P v) :
    ∃ t v', exec i s = .next t ∧ WritesReg rd v' s t ∧ P v' := by
  obtain ⟨t, hnext, hwrites⟩ := writeAdvance_spec v s (List.all_eq_true.1 hrs rd hrd)
  exact ⟨t, v, by rw [hexec, guardRegs_ok hrs, hnext], hwrites, hv⟩

/-! ### The values -/

/-- The difference of two words, as an integer modulo `2 ^ 32`. -/
theorem coe_toNat_sub (x y : Word) : ((x - y).toNat : Int) = ((x.toNat : Int) - y.toNat) % 2 ^ 32 := by
  rw [BitVec.toNat_sub]
  omega

theorem threeWay_of_gt {a b : Int} (h : a > b) : threeWay a b = 1 := if_pos h

theorem threeWay_of_lt {a b : Int} (h : a < b) : threeWay a b = 0xFFFFFFFF := by
  rw [threeWay, if_neg (by omega), if_pos h]

@[simp] theorem threeWay_self (a : Int) : threeWay a a = 0 := by simp [threeWay]

/-- The three clauses of R79 and R80 as numbers. -/
theorem toNat_threeWay (a b : Int) :
    (a > b → (threeWay a b).toNat = 1) ∧ (a < b → (threeWay a b).toNat = 2 ^ 32 - 1) ∧
      (a = b → (threeWay a b).toNat = 0) := by
  refine ⟨fun h => ?_, fun h => ?_, fun h => ?_⟩
  · rw [threeWay_of_gt h]; rfl
  · rw [threeWay_of_lt h]; rfl
  · rw [h, threeWay_self]; rfl

theorem toNat_compareUnsigned (x y : Word) :
    (x.toNat > y.toNat → (compareUnsigned x y).toNat = 1) ∧
      (x.toNat < y.toNat → (compareUnsigned x y).toNat = 2 ^ 32 - 1) ∧
      (x.toNat = y.toNat → (compareUnsigned x y).toNat = 0) := by
  have h := toNat_threeWay x.toNat y.toNat
  rwa [gt_iff_lt, Nat.cast_lt, Nat.cast_lt, Nat.cast_inj] at h

/-! ### The statements of 40_arith_logic.md -/

/-- Settles O10: both are a guarded write, of the sum and of the difference modulo 2^32. -/
theorem addAndSubWrap : Obligations.AddAndSubWrap := by
  intro rd rs1 rs2 s hd h1 h2
  have hrs : [rd, rs1, rs2].all regOk = true := by simp [hd, h1, h2]
  have hrd : rd ∈ [rd, rs1, rs2] := List.mem_cons_self
  constructor
  · exact ⟨encodes_of_decodeLanes rfl, exec_of_guardedWrite rfl hrs hrd (BitVec.toNat_add _ _)⟩
  · exact ⟨encodes_of_decodeLanes rfl, exec_of_guardedWrite rfl hrs hrd (coe_toNat_sub _ _)⟩

/-- Settles O11: each is a guarded write of the word operation, which acts bit by bit. -/
theorem andOrrNotAreBitwise : Obligations.AndOrrNotAreBitwise := by
  intro rd rs1 rs2 x3 s hd h1 h2
  have hrs : [rd, rs1, rs2].all regOk = true := by simp [hd, h1, h2]
  have hrd : rd ∈ [rd, rs1, rs2] := List.mem_cons_self
  refine ⟨⟨encodes_of_decodeLanes rfl, ?and⟩, ⟨encodes_of_decodeLanes rfl, ?orr⟩, encodes_of_decodeLanes rfl, ?not⟩
  case and => exact exec_of_guardedWrite rfl hrs hrd fun _ _ => BitVec.getLsbD_and
  case orr => exact exec_of_guardedWrite rfl hrs hrd fun _ _ => BitVec.getLsbD_or
  case not =>
    refine exec_of_guardedWrite (rs := [rd, rs1]) rfl (by simp [hd, h1]) List.mem_cons_self fun k hk => ?_
    rw [BitVec.getLsbD_not, decide_eq_true hk, Bool.true_and]

/-- Settles O15: both are a guarded write of the three-way compare, of the unsigned and of the signed values. -/
theorem threeWayCompares : Obligations.ThreeWayCompares := by
  intro rd rs1 rs2 s hd h1 h2
  have hrs : [rd, rs1, rs2].all regOk = true := by simp [hd, h1, h2]
  have hrd : rd ∈ [rd, rs1, rs2] := List.mem_cons_self
  constructor
  · exact ⟨encodes_of_decodeLanes rfl, exec_of_guardedWrite rfl hrs hrd (toNat_compareUnsigned _ _)⟩
  · exact ⟨encodes_of_decodeLanes rfl, exec_of_guardedWrite rfl hrs hrd (toNat_threeWay _ _)⟩

/-- Settles O9: NOP is `advance` alone. -/
theorem nopOnlyAdvances : Obligations.NopOnlyAdvances := fun _ _ _ s =>
  ⟨encodes_of_decodeLanes rfl, s.advance, rfl, advance_advancesOnly s⟩

end Sys2Proof.Machine

namespace Sys2Proof.Machine

/-! ### The immediate of SET and SUP, and the values they write (41_move_load_store.md, R114) -/

/-- The two lanes of imm16 are its digits in base 256, a2 the low one. -/
theorem imm16Of_eq {a2 a3 : Byte} {imm16 : BitVec 16} (h : imm16.toNat = a2.toNat + a3.toNat * 2 ^ 8) :
    imm16Of a2 a3 = imm16 := by
  apply BitVec.eq_of_toNat_eq
  rw [imm16Of, toNat_append_eq_add, h, Nat.add_comm]

theorem toNat_zext16 (imm16 : BitVec 16) : (zext16 imm16).toNat = imm16.toNat :=
  BitVec.toNat_setWidth_of_le (by decide)

/-- Replacing the upper half of a word: the new half in front, the old low half behind it. -/
theorem toNat_append_lowHalf (hi : BitVec 16) (w : Word) :
    (hi ++ w.setWidth 16).toNat = hi.toNat * 2 ^ 16 + w.toNat % 2 ^ 16 := by
  rw [toNat_append_eq_add, BitVec.toNat_setWidth]

/-! ### The statements of 41_move_load_store.md -/

/-- Settles O16: each is a guarded write, and the immediate of SET and SUP is the one the last two lanes give. -/
theorem setMovSup : Obligations.SetMovSup := by
  intro rd rs1 a2 a3 x3 imm16 s hd h1 himm
  obtain rfl := imm16Of_eq himm
  have hrd : [rd].all regOk = true := by simp [hd]
  have hboth : [rd, rs1].all regOk = true := by simp [hd, h1]
  refine ⟨⟨encodes_of_decodeLanes rfl, ?set⟩, ⟨encodes_of_decodeLanes rfl, ?mov⟩, encodes_of_decodeLanes rfl, ?sup⟩
  case set => exact exec_of_guardedWrite rfl hrd List.mem_cons_self (toNat_zext16 _)
  case mov => exact exec_of_guardedWrite (P := (· = s.reg rs1)) rfl hboth List.mem_cons_self rfl
  case sup => exact exec_of_guardedWrite rfl hrd List.mem_cons_self (toNat_append_lowHalf _ _)

end Sys2Proof.Machine

namespace Sys2Proof.Machine

/-! ### The immediate of JMI and the target it gives (42_control_transfer.md) -/

/-- The three lanes of imm24 are its digits in base 256, a1 the low one. -/
theorem imm24Of_eq {a1 a2 a3 : Byte} {imm24 : BitVec 24}
    (h : imm24.toNat = a1.toNat + a2.toNat * 2 ^ 8 + a3.toNat * 2 ^ 16) : imm24Of a1 a2 a3 = imm24 := by
  apply BitVec.eq_of_toNat_eq
  rw [imm24Of, toNat_append_eq_add, toNat_append_eq_add, h]
  omega

theorem toNat_zext24 (imm24 : BitVec 24) : (zext24 imm24).toNat = imm24.toNat :=
  BitVec.toNat_setWidth_of_le (by decide)

/-! ### The statements of 42_control_transfer.md -/

/-- Settles O21: each is a jump, JMI to the immediate its three lanes give and JMP, under its guard, to the register. -/
theorem unconditionalJumps : Obligations.UnconditionalJumps := by
  intro rtarget a1 a2 a3 x2 x3 imm24 s htarget himm
  obtain rfl := imm24Of_eq himm
  refine ⟨⟨encodes_of_decodeLanes rfl, ?jmi⟩, encodes_of_decodeLanes rfl, ?jmp⟩
  case jmi => exact ⟨_, _, rfl, jump_jumpsTo s _, toNat_zext24 _⟩
  case jmp => exact ⟨_, guardRegs_ok (rs := [rtarget]) (by simp [htarget]), jump_jumpsTo s _⟩

end Sys2Proof.Machine

namespace Sys2Proof.Machine

/-! ### Clearing executing alone (R122) -/

theorem clearExecuting_haltsHere (s : State) : HaltsHere s { s with executing := false } where
  executing := rfl
  mem _ := rfl
  regs _ _ _ := rfl
  memSize := rfl
  sxtSrcBits := rfl
  replies := rfl
  events := rfl

/-! ### The statements of 44_system.md -/

/-- Settles O32: the code is the immediate its three lanes give, zero-extended; the callback runs once on the state, and
PC advances from where it left it. -/
theorem intInvokesTheInterruptCallback : Obligations.IntInvokesTheInterruptCallback := by
  intro a1 a2 a3 imm24 s himm
  obtain rfl := imm24Of_eq himm
  exact ⟨encodes_of_decodeLanes rfl, _, _, _, toNat_zext24 _, rfl, callHost_acts s _, advance_advancesOnly _⟩

/-- Settles O34: HLT clears executing and does nothing else. -/
theorem hltHaltsHere : Obligations.HltHaltsHere := fun _ _ _ s =>
  ⟨encodes_of_decodeLanes rfl, _, rfl, clearExecuting_haltsHere s⟩

end Sys2Proof.Machine

namespace Sys2Proof.Machine

/-! ### A fetched word that names no instruction (60_exceptions.md R131) -/

/-- The step executes the illegal opcode on the state the fetch left, which is the state itself. -/
theorem step_of_decode_error {s : State} {e : DecodeError} (hx : s.executing = true) (hf : s.FetchOk)
    (hd : decode s.wordAtPc = .error e) : step s = execIllegal s := by
  simp only [step, if_pos hx, fetch_ok hf, hd]

/-- A callback applied to a HALTED machine leaves it HALTED, whatever its reply (D15). -/
theorem callHost_keeps_halted {s : State} (e : HostEvent) (h : s.executing = false) :
    (s.callHost e).executing = false := by
  rw [← Bool.not_eq_true] at h ⊢
  exact mt (callHost_executing s e) h

/-- With no callback registered a port moves no register, so PC stays. -/
theorem HostActs.pc_of_absent {e : HostEvent} {s u : State} (h : HostActs e s u) (hr : s.replies = []) :
    u.pc = s.pc := by
  obtain ⟨-, -, -, hregs⟩ := h.absent hr
  exact hregs Slot.pc (by decide)

/-! ### The statements of 60_exceptions.md -/

/-- Settles O35: executing is cleared before the callback runs, and the callback cannot set it again. -/
theorem illegalOpcodeHalts : Obligations.IllegalOpcodeHalts := by
  intro s e hx hf hd
  have hacts := callHost_acts { s with executing := false } (.error .illegalOpcode)
  exact ⟨_, step_of_decode_error hx hf hd, hacts, callHost_keeps_halted _ rfl, hacts.pc_of_absent⟩

end Sys2Proof.Machine

namespace Sys2Proof.Machine

/-! ### What init leaves (R150) -/

theorem reg_init (s : State) (q : Reg) : s.init.reg q = 0 := by
  simp only [State.reg, State.init, Vector.getElem?_replicate]
  split <;> rfl

/-! ### What load installs (R151) -/

/-- The state a load that R152 admits answers. -/
def State.loaded (s : State) (p : List Byte) : State :=
  { ((s.setReg Slot.pc 0).setReg Slot.lr 0).setReg Slot.sp (BitVec.ofNat 32 (s.memSize - 1)) with
    mem := s.mem.writeBytes 0 p
    executing := true }

theorem load_of_fits {s : State} {p : List Byte} (h : p.length ≤ s.memSize) : s.load p = .next (s.loaded p) :=
  if_pos h

/-- Inversion of `load`: it answers a next state only for a program that fits. -/
theorem load_next {s t : State} {p : List Byte} (h : s.load p = .next t) : p.length ≤ s.memSize ∧ t = s.loaded p := by
  unfold State.load at h
  split at h
  · exact ⟨‹_›, (Host.Outcome.next.inj h).symm⟩
  · cases h

/-- The register file after a load: the three slots load writes, every other slot as before. -/
theorem reg_loaded (s : State) (p : List Byte) (q : Reg) :
    (s.loaded p).reg q =
      if q = Slot.sp then BitVec.ofNat 32 (s.memSize - 1) else if q = Slot.lr ∨ q = Slot.pc then 0 else s.reg q := by
  have hregs : (s.loaded p).reg q =
      (((s.setReg Slot.pc 0).setReg Slot.lr 0).setReg Slot.sp (BitVec.ofNat 32 (s.memSize - 1))).reg q := rfl
  simp only [hregs, reg_setReg, regOk_pc, regOk_lr, regOk_sp, and_true, ite_or]

/-- The memory after a load: the program from address 0 up, every byte behind it as before. -/
theorem read_loaded (s : State) (p : List Byte) (a : Nat) :
    (s.loaded p).mem.read a = (p[a]?).getD (s.mem.read a) := by
  have hread := Memory.read_writeBytes s.mem 0 p a
  rwa [if_pos a.zero_le, Nat.sub_zero] at hread

/-- SP after a load is the last address of memory: every MEM_SIZE the spec allows leaves it below 2^32. -/
theorem toNat_lastAddress {n : Nat} (hpos : 1 ≤ n) (hmax : n ≤ Config.maxMemSize) :
    (BitVec.ofNat 32 (n - 1)).toNat = n - 1 := by
  rw [Config.maxMemSize] at hmax
  rw [BitVec.toNat_ofNat, Nat.mod_eq_of_lt (by omega)]

/-! ### What clears executing in a step of a RUNNING machine (R155) -/

theorem step_of_decode_ok {s : State} {i : Instr} (hx : s.executing = true) (hf : s.FetchOk)
    (hd : decode s.wordAtPc = .ok i) : step s = exec i s := by
  simp only [step, if_pos hx, fetch_ok hf, hd]

/-- A callback invoked on a RUNNING machine leaves it HALTED exactly when there is a reply and it says so. -/
theorem callHost_executing_eq_false_iff {s : State} (e : HostEvent) (hx : s.executing = true) :
    (s.callHost e).executing = false ↔ ∃ r rest, s.replies = r :: rest ∧ r.halt = true := by
  have hacts := callHost_acts s e
  cases hr : s.replies with
  | nil =>
    obtain ⟨-, hexec, -⟩ := hacts.absent hr
    simp [hexec, hx]
  | cons r rest =>
    obtain ⟨-, hexec, -⟩ := hacts.present r rest hr
    simp [hexec, hx]

/-- Each row of the table in which the instruction itself halts the machine (R122, R106, R131). -/
theorem HaltsByItself.step_executing {s t : State} (h : HaltsByItself s) (hx : s.executing = true)
    (hs : step s = .next t) : t.executing = false := by
  obtain ⟨hf, ⟨e, hd⟩ | ⟨x1, x2, x3, hd⟩ | ⟨⟨x1, x2, x3, hd⟩, hlr⟩⟩ := h
  · rw [step_of_decode_error hx hf hd] at hs
    obtain rfl := Host.Outcome.next.inj hs
    exact callHost_keeps_halted _ rfl
  · rw [step_of_decode_ok hx hf hd] at hs
    obtain rfl := Host.Outcome.next.inj hs
    rfl
  · rw [step_of_decode_ok hx hf hd, exec, execRet, if_pos hlr] at hs
    obtain rfl := Host.Outcome.next.inj hs
    rfl

/-- The three ways a step of a RUNNING machine treats the executing flag: the instruction clears it, no callback runs
and the flag stays, or the flag is what one callback on `s` left. -/
theorem step_executing_cases {s t : State} (hx : s.executing = true) (hs : step s = .next t) :
    HaltsByItself s ∨ (t.executing = true ∧ t.events = s.events) ∨
      ∃ e, t.executing = (s.callHost e).executing ∧ t.events = s.events ++ [e] := by
  cases step_next hs with
  | halted hhalted => simp [hx] at hhalted
  | illegal _ hf e hd => exact .inl ⟨hf, .inl ⟨e, hd⟩⟩
  | fetchFailed _ _ h =>
    subst h
    exact .inr (.inr ⟨_, rfl, callHost_events s (.error .invalidMemoryAccess)⟩)
  | runs _ hf i hd heffect =>
    cases heffect with
    | halts hi =>
      refine .inl ⟨hf, .inr ?_⟩
      obtain ⟨x1, x2, x3, rfl⟩ | ⟨⟨x1, x2, x3, rfl⟩, hlr⟩ := hi
      · exact .inl ⟨x1, x2, x3, hd⟩
      · exact .inr ⟨⟨x1, x2, x3, hd⟩, hlr⟩
    | host e h =>
      subst h
      exact .inr (.inr ⟨e, rfl, callHost_events s e⟩)
    | advances h | writes _ _ _ _ h | storesWord _ _ _ _ _ h | storesByte _ _ _ _ _ h | jumps _ h | calls _ _ _ _ h
    | returns _ _ _ _ _ h =>
      subst h
      exact .inr (.inl ⟨hx, rfl⟩)

/-- The last row of R155's table: what a RUNNING machine is HALTED by. -/
theorem step_halts_iff {s t : State} (hx : s.executing = true) (hs : step s = .next t) :
    t.executing = false ↔ HaltsByItself s ∨ CallbackCleared s t := by
  obtain hself | ⟨hexec, hevents⟩ | ⟨e, hexec, hevents⟩ := step_executing_cases hx hs
  · exact iff_of_true (hself.step_executing hx hs) (.inl hself)
  · refine iff_of_false (by simp [hexec]) ?_
    rintro (hself | ⟨hcall, -⟩)
    · simp [hself.step_executing hx hs] at hexec
    · exact hcall hevents
  · have hcleared := callHost_executing_eq_false_iff e hx
    rw [← hexec] at hcleared
    constructor
    · exact fun hhalt => .inr ⟨by simp [hevents], hcleared.1 hhalt⟩
    · rintro (hself | ⟨-, hreply⟩)
      · exact hself.step_executing hx hs
      · exact hcleared.2 hreply

/-! ### The statements of 70_reset_and_hazards.md -/

/-- Settles O42: init and load set the flag themselves, a HALTED step is the identity, and a RUNNING step is
`step_halts_iff`. -/
theorem runningAndHaltedTransitions : Obligations.RunningAndHaltedTransitions := by
  refine ⟨fun _ => rfl, ?load, ?halted, fun s t => step_halts_iff⟩
  case load =>
    intro s t p h
    obtain ⟨-, rfl⟩ := load_next h
    rfl
  case halted =>
    intro s hx
    simp [step, hx]

/-- Settles O51: registers by `reg_loaded`, bytes by `read_loaded`; the other fields are not written. -/
theorem loadInstallsTheProgram : Obligations.LoadInstallsTheProgram := by
  intro s p hpos hmax hfits
  refine ⟨s.loaded p, load_of_fits hfits, ?pc, ?lr, ?sp, rfl, ?regs, ?program, ?behind, rfl, rfl, rfl, rfl⟩
  case pc => simp [State.pc, reg_loaded]
  case lr => simp [reg_loaded]
  case sp => simpa [reg_loaded] using toNat_lastAddress hpos hmax
  case regs =>
    intro q _ hq
    simp only [List.mem_cons, List.not_mem_nil, or_false, not_or] at hq
    obtain ⟨hpc, hlr, hsp⟩ := hq
    simp [reg_loaded, hpc, hlr, hsp]
  case program =>
    intro k b hb
    rw [read_loaded, hb, Option.getD_some]
  case behind =>
    intro a ha
    rw [read_loaded, List.getElem?_eq_none ha, Option.getD_none]

/-- Settles O50: the register file is 37 zeros and memory lists no byte. -/
theorem initZeroesEverything : Obligations.InitZeroesEverything := fun s =>
  ⟨fun q _ => reg_init s q, fun _ => rfl, rfl, rfl⟩

end Sys2Proof.Machine

namespace Sys2Proof.Machine

/-! ### Decode and encode, from words to instructions (30_encoding.md R52, R54, R55) -/

/-- The lanes of an immediate instruction whose imm16 was put together from two lanes are those lanes (R54). -/
theorem imm16Lanes_imm16Of (op a1 a2 a3 : Byte) : imm16Lanes op a1 (imm16Of a2 a3) = ⟨op, a1, a2, a3⟩ := by
  rw [imm16Lanes, imm16Of, BitVec.extractLsb'_append_eq_right, BitVec.extractLsb'_append_eq_left]

theorem imm24Lanes_imm24Of (op a1 a2 a3 : Byte) : imm24Lanes op (imm24Of a1 a2 a3) = ⟨op, a1, a2, a3⟩ := by
  simp only [imm24Lanes, imm24Of, BitVec.extractLsb'_append_eq_right, Nat.reduceLeDiff, Nat.reduceSub,
    BitVec.extractLsb'_append_eq_of_le, BitVec.extractLsb'_eq_self]

/-- The lanes of an instruction with opcode byte `op` are the lanes it was decoded from, when those hold that opcode. -/
theorem lanes_eq_of_op {l : Lanes} {op : Byte} (h : l.op.toNat = op.toNat) : ⟨op, l.a1, l.a2, l.a3⟩ = l := by
  rw [← BitVec.eq_of_toNat_eq h]

/-- Every row of the opcode map is read back from the lanes it decodes. -/
theorem encodeLanes_of_decodeLanes {l : Lanes} {i : Instr} (h : decodeLanes l = .ok i) : encodeLanes i = l := by
  unfold decodeLanes at h
  split at h <;> cases h
  all_goals
    simp only [encodeLanes, imm16Lanes_imm16Of, imm24Lanes_imm24Of]
    exact lanes_eq_of_op ‹_›

theorem decode_encode (i : Instr) : decode (encode i) = .ok i := by
  cases i with
  | set rd imm16 => exact Laws.RoundTrip.set rd imm16
  | sup rd imm16 => exact Laws.RoundTrip.sup rd imm16
  | jmi imm24 => exact Laws.RoundTrip.jmi imm24
  | int imm24 => exact Laws.RoundTrip.int imm24
  | nop | add | sub | and | orr | xor | not | lsh | ash | tcu | tcs | mov | ldw | stw | ldb | stb | jmp | bve | bvn
  | cal | ret | mul | div | mod | sia | sxt | seq | snd | hlt => exact Laws.decode_word _

theorem encode_of_decode {w : Word} {i : Instr} (h : decode w = .ok i) : encode i = w := by
  rw [encode, encodeLanes_of_decodeLanes h, word_lanes]

/-! ### The statements about decode and encode (30_encoding.md) -/

/-- Settles O3: an instruction is read back from its word, and the lanes a word decodes from are those of the
instruction. -/
theorem decodeAndEncodeAgree : Obligations.DecodeAndEncodeAgree :=
  ⟨decode_encode, fun _ _ => encode_of_decode⟩

/-- Settles O4: a row of the opcode map names an instruction for a byte not listed; the default row is reached by the
listed bytes alone. -/
theorem illegalOpcodesAreTheListedBytes : Obligations.IllegalOpcodesAreTheListedBytes := by
  intro w
  rw [← toNat_lanes_op, decode]
  generalize lanes w = l
  have hbyte := l.op.isLt
  unfold decodeLanes
  split
  case h_34 => simp only [imp_false, true_iff] at *; omega
  all_goals simp only [reduceCtorEq, false_iff]; omega

/-- Settles O5: each word evaluates through the opcode map. -/
theorem knownWordsDecode : Obligations.KnownWordsDecode :=
  ⟨rfl, rfl, rfl, rfl, rfl, rfl, rfl, rfl, rfl⟩

end Sys2Proof.Machine

namespace Sys2Proof.Machine

/-! ### The four equations of `step` (R156, R158, D11)

`step_of_decode_ok` and `step_of_decode_error` say what a good fetch does; these two are the other cases. -/

theorem step_of_halted {s : State} (hx : s.executing = false) : step s = .next s := by
  simp [step, hx]

theorem step_of_fetch_failed {s : State} (hx : s.executing = true) (hf : ¬ s.FetchOk) :
    step s = .next (s.raise .invalidMemoryAccess).advance := by
  simp only [step, if_pos hx, fetch_failed hf, decode_zero]
  rfl

/-! ### Every instruction is a guard around a next state (D2) -/

/-- A meaning with two ways to go on goes on either way. -/
theorem guardRegs_next_ite (rs : List Reg) (c : Prop) [Decidable c] (t u : State) :
    guardRegs rs (if c then .next t else .next u) = guardRegs rs (.next (if c then t else u)) := by
  rw [← apply_ite Host.Outcome.next]

/-- The register check is the only way an instruction can stop: those without a register operand check nothing. -/
theorem exec_eq_guardRegs (i : Instr) (s : State) : ∃ t, exec i s = guardRegs i.regOperands (.next t) := by
  cases i with
  | nop | jmi | int | hlt => exact ⟨_, rfl⟩
  | add | sub | and | orr | xor | not | lsh | ash | tcu | tcs | set | mov | mul | sup | sxt | seq | jmp | cal | snd =>
    exact ⟨_, rfl⟩
  | ldw | stw | ldb | stb | bve | bvn | div | mod | sia => exact ⟨_, guardRegs_next_ite _ _ _ _⟩
  | ret => exact ⟨_, (apply_ite Host.Outcome.next _ _ _).symm⟩

theorem exec_of_wf {i : Instr} (h : i.wf = true) (s : State) : ∃ t, exec i s = .next t := by
  obtain ⟨t, ht⟩ := exec_eq_guardRegs i s
  exact ⟨t, by rw [ht, guardRegs_ok h]⟩

theorem exec_of_not_wf {i : Instr} (h : i.wf = false) (s : State) : exec i s = .fault .undefinedRegister := by
  obtain ⟨t, ht⟩ := exec_eq_guardRegs i s
  rw [ht, guardRegs_bad h]

/-! ### The host's record of invocations and its list of replies (D28) -/

@[simp] theorem callHost_replies (s : State) (e : HostEvent) : (s.callHost e).replies = s.replies.tail := by
  have hacts := callHost_acts s e
  cases hr : s.replies with
  | nil => exact (hacts.absent hr).1
  | cons r rest => exact (hacts.present r rest hr).1

/-- What a transition does to the host's side of the state: no callback ran and nothing there changed, or one ran, its
event was recorded and its reply, if there was one, is used up. -/
def CallsAtMostOnce (s t : State) : Prop :=
  (t.events = s.events ∧ t.replies = s.replies) ∨ ∃ e, t.events = s.events ++ [e] ∧ t.replies = s.replies.tail

theorem callHost_callsAtMostOnce (s : State) (e : HostEvent) : CallsAtMostOnce s (s.callHost e) :=
  .inr ⟨e, callHost_events s e, callHost_replies s e⟩

theorem Effect.callsAtMostOnce {i : Instr} {s t : State} (h : Effect i s t) : CallsAtMostOnce s t := by
  cases h with
  | host e h => subst h; exact callHost_callsAtMostOnce s e
  | advances h | writes _ _ _ _ h | storesWord _ _ _ _ _ h | storesByte _ _ _ _ _ h | jumps _ h | calls _ _ _ _ h
  | returns _ _ _ _ _ h | halts _ h => subst h; exact .inl ⟨rfl, rfl⟩

theorem Effect.params {i : Instr} {s t : State} (h : Effect i s t) :
    t.memSize = s.memSize ∧ t.sxtSrcBits = s.sxtSrcBits := by
  cases h with
  | host e h => subst h; exact ⟨callHost_memSize s e, callHost_sxtSrcBits s e⟩
  | advances h | writes _ _ _ _ h | storesWord _ _ _ _ _ h | storesByte _ _ _ _ _ h | jumps _ h | calls _ _ _ _ h
  | returns _ _ _ _ _ h | halts _ h => subst h; exact ⟨rfl, rfl⟩

/-! ### The invariant through an instruction (D18) -/

theorem Effect.inv {i : Instr} {s t : State} (h : Effect i s t) (hs : s.Inv) : t.Inv := by
  cases h with
  | storesWord rsrc rbase off8 _ hb h => subst h; exact (hs.storeWord hb _).advance
  | storesByte rsrc rbase off8 _ hb h => subst h; exact (hs.storeByte hb _).advance
  | host e h => subst h; exact (hs.callHost e).advance
  | advances h | writes _ _ _ _ h | jumps _ h | calls _ _ _ _ h | returns _ _ _ _ _ h | halts _ h =>
    subst h; exact hs.congr rfl rfl

/-! ### What changes in a step without a callback (R12, 20_memory.md section 8) -/

/-- Such a step leaves the whole state alone, or runs the instruction at PC. -/
theorem step_without_callback {s t : State} (hs : step s = .next t) (he : t.events = s.events) :
    t = s ∨ (s.executing = true ∧ s.FetchOk ∧ ∃ i, decode s.wordAtPc = .ok i ∧ Effect i s t) := by
  cases step_next hs with
  | halted _ h => exact .inl h
  | runs hx hf i hd h => exact .inr ⟨hx, hf, i, hd, h⟩
  | illegal _ _ _ _ h | fetchFailed _ _ h => subst h; simp [State.raise] at he

/-- A byte that a word write changes is one of the four. -/
theorem Memory.mem_range_of_writeWord_ne {m : Memory} {ea : Int} {v : Word} {a : Nat} (h0 : 0 ≤ ea)
    (h : (m.writeWord ea.toNat v).read a ≠ m.read a) : ea ≤ a ∧ (a : Int) < ea + 4 := by
  by_contra hout
  exact h (Memory.read_writeWord_outside m v (by omega))

theorem Memory.eq_of_write_ne {m : Memory} {ea : Int} {b : Byte} {a : Nat} (h0 : 0 ≤ ea)
    (h : (m.write ea.toNat b).read a ≠ m.read a) : (a : Int) = ea := by
  by_contra hne
  exact h (Memory.read_write_ne m _ b a (by omega))

/-- Only STW and STB change memory, and only the bytes they store to. -/
theorem Effect.stores_of_read_ne {i : Instr} {s t : State} {a : Nat} (h : Effect i s t) (he : t.events = s.events)
    (ha : t.mem.read a ≠ s.mem.read a) : ∃ (rsrc rbase : Reg) (off8 : Byte),
      (i = .stw rsrc rbase off8 ∧ InBounds s.memSize (effAddr s rbase off8) 4 ∧
        effAddr s rbase off8 ≤ a ∧ (a : Int) < effAddr s rbase off8 + 4) ∨
      (i = .stb rsrc rbase off8 ∧ InBounds s.memSize (effAddr s rbase off8) 1 ∧
        (a : Int) = effAddr s rbase off8) := by
  cases h with
  | storesWord rsrc rbase off8 hi hb h =>
    subst h
    rw [ea_eq, inBounds_iff] at hb
    rw [advance_mem, ea_eq] at ha
    exact ⟨rsrc, rbase, off8, .inl ⟨hi, hb, Memory.mem_range_of_writeWord_ne hb.1 ha⟩⟩
  | storesByte rsrc rbase off8 hi hb h =>
    subst h
    rw [ea_eq, inBounds_iff] at hb
    rw [advance_mem, ea_eq] at ha
    exact ⟨rsrc, rbase, off8, .inr ⟨hi, hb, Memory.eq_of_write_ne hb.1 ha⟩⟩
  | host e h => subst h; simp at he
  | advances h | writes _ _ _ _ h | jumps _ h | calls _ _ _ _ h | returns _ _ _ _ _ h | halts _ h =>
    subst h; exact absurd rfl ha

/-- A register other than PC changes as the destination, or as LR by CAL or RET. -/
theorem Effect.names_of_reg_ne {i : Instr} {s t : State} {q : Reg} (h : Effect i s t) (he : t.events = s.events)
    (hpc : q ≠ Slot.pc) (hq : t.reg q ≠ s.reg q) :
    destReg i = some q ∨ (q = Slot.lr ∧ ((∃ r x2 x3, i = .cal r x2 x3) ∨ ∃ x1 x2 x3, i = .ret x1 x2 x3)) := by
  cases h with
  | writes rd v hd _ h =>
    subst h
    refine .inl (hd.trans (congrArg some ?_))
    by_contra hne
    exact hq (by simp [hpc, Ne.symm hne])
  | calls rtarget x2 x3 hi h =>
    subst h
    refine .inr ⟨?_, .inl ⟨rtarget, x2, x3, hi⟩⟩
    by_contra hne
    exact hq (by simp [reg_link, hpc, hne])
  | returns x1 x2 x3 hi _ h =>
    subst h
    refine .inr ⟨?_, .inr ⟨x1, x2, x3, hi⟩⟩
    by_contra hne
    exact hq (by simp [hpc, hne])
  | host e h => subst h; simp at he
  | advances h | storesWord _ _ _ _ _ h | storesByte _ _ _ _ _ h | jumps _ h | halts _ h =>
    subst h; exact absurd (by simp [hpc]) hq

/-! ### The statements about a step (70_reset_and_hazards.md, 60_exceptions.md, 10_state.md) -/

/-- Settles O45: one case for each way a step can answer; only a store and a callback touch memory. -/
theorem stepKeepsTheInvariant : Obligations.StepKeepsTheInvariant := by
  intro s t hs h
  cases step_next h with
  | halted _ h => subst h; exact hs
  | runs _ _ i _ heffect => exact heffect.inv hs
  | illegal _ _ _ _ h => subst h; exact State.Inv.callHost (s := { s with executing := false }) (hs.congr rfl rfl) _
  | fetchFailed _ _ h => subst h; exact (hs.callHost _).advance

/-- Settles O47: a step without a callback runs the instruction at PC, and only a store changes a byte. -/
theorem memoryChangesOnlyByStores : Obligations.MemoryChangesOnlyByStores := by
  intro s t a hs he ha
  obtain rfl | ⟨hx, hf, i, hd, heffect⟩ := step_without_callback hs he
  · exact absurd rfl ha
  · obtain ⟨rsrc, rbase, off8, ⟨rfl, hstw⟩ | ⟨rfl, hstb⟩⟩ := heffect.stores_of_read_ne he ha
    · exact ⟨hx, hf, rsrc, rbase, off8, .inl ⟨hd, hstw⟩⟩
    · exact ⟨hx, hf, rsrc, rbase, off8, .inr ⟨hd, hstb⟩⟩

/-- Settles O37: an instruction is its register check around a next state. -/
theorem faultExactlyOnUndefinedRegister : Obligations.FaultExactlyOnUndefinedRegister := fun _ s =>
  ⟨fun h => exec_of_not_wf h s, fun h => exec_of_wf h s⟩

/-- Settles O40: the error callback runs once on the state, and NOP advances from where it left PC. -/
theorem failedFetchRunsNop : Obligations.FailedFetchRunsNop := fun s hx hf =>
  ⟨_, _, step_of_fetch_failed hx hf, callHost_acts s _, advance_advancesOnly _⟩

/-- Settles O41: of the four equations of `step`, only the one that runs an instruction can end without a next state. -/
theorem stepStopsOnlyOnUndefinedRegister : Obligations.StepStopsOnlyOnUndefinedRegister := by
  intro s
  cases hx : s.executing with
  | false => exact .inl ⟨_, step_of_halted hx⟩
  | true =>
    by_cases hf : s.FetchOk
    · cases hd : decode s.wordAtPc with
      | error e => exact .inl ⟨_, step_of_decode_error hx hf hd⟩
      | ok i =>
        rw [step_of_decode_ok hx hf hd]
        cases hw : i.wf with
        | true => exact .inl (exec_of_wf hw s)
        | false => exact .inr ⟨exec_of_not_wf hw s, rfl, hf, i, rfl, hw⟩
    · exact .inl ⟨_, step_of_fetch_failed hx hf⟩

/-- Settles O43: one case for each way a step can answer. -/
theorem atMostOneCallbackInAStep : Obligations.AtMostOneCallbackInAStep := by
  intro s t h
  cases step_next h with
  | halted _ h => subst h; exact .inl ⟨rfl, rfl⟩
  | runs _ _ i _ heffect => exact heffect.callsAtMostOnce
  | illegal _ _ _ _ h => subst h; exact callHost_callsAtMostOnce { s with executing := false } _
  | fetchFailed _ _ h => subst h; exact callHost_callsAtMostOnce s _

/-- Settles O44: one case for each way a step can answer. -/
theorem parametersNeverChange : Obligations.ParametersNeverChange := by
  intro s t h
  cases step_next h with
  | halted _ h => subst h; exact ⟨rfl, rfl⟩
  | runs _ _ i _ heffect => exact heffect.params
  | illegal _ _ _ _ h => subst h; exact ⟨callHost_memSize _ _, callHost_sxtSrcBits _ _⟩
  | fetchFailed _ _ h => subst h; exact ⟨callHost_memSize _ _, callHost_sxtSrcBits _ _⟩

/-- Settles O48: a step without a callback runs the instruction at PC, which writes only the register it names. -/
theorem registersChangeOnlyAsNamed : Obligations.RegistersChangeOnlyAsNamed := by
  intro s t q hs he _ hpc hq
  obtain rfl | ⟨-, -, i, hd, heffect⟩ := step_without_callback hs he
  · exact absurd rfl hq
  · exact ⟨i, hd, heffect.names_of_reg_ne he hpc hq⟩

/-- Settles O39: the equation of `step` for a good fetch. -/
theorem stepRunsTheDecodedInstruction : Obligations.StepRunsTheDecodedInstruction := fun _ _ =>
  step_of_decode_ok

/-- Settles O38: no meaning takes an ignored byte as an argument. -/
theorem ignoredBytesChangeNothing : Obligations.IgnoredBytesChangeNothing := fun _ _ _ _ _ _ =>
  ⟨rfl, rfl, rfl, rfl, rfl, rfl, rfl, rfl⟩

end Sys2Proof.Machine

namespace Sys2Proof.Machine

/-! ### Nothing reads the record of past invocations (10_state.md section 4, log 2)

A transition answers the same whatever the record is: with `es` recorded it answers what it answers with nothing
recorded, `es` put before what that added. -/

/-- `s` with `es` as its record of past invocations. -/
def State.withEvents (s : State) (es : List HostEvent) : State := { s with events := es }

/-- `r` as the answer of a machine that had recorded `es` before it began. -/
def afterEvents (es : List HostEvent) : Result → Result
  | .next t => .next (t.withEvents (es ++ t.events))
  | .fault f => .fault f
  | .refused r => .refused r

/-- An ending that invokes no callback. -/
theorem next_afterEvents {es : List HostEvent} {t u : State} (h : t = u.withEvents es) (hu : u.events = []) :
    .next t = afterEvents es (.next u) := by
  rw [afterEvents, hu, List.append_nil, h]

theorem guardRegs_afterEvents {es : List HostEvent} {r r' : Result} (rs : List Reg) (h : r = afterEvents es r') :
    guardRegs rs r = afterEvents es (guardRegs rs r') := by
  unfold guardRegs
  split
  · exact h
  · rfl

theorem ite_afterEvents {es : List HostEvent} {a b a' b' : Result} (c : Prop) [Decidable c]
    (ha : a = afterEvents es a') (hb : b = afterEvents es b') :
    (if c then a else b) = afterEvents es (if c then a' else b') := by
  rw [ha, hb, apply_ite (afterEvents es)]

theorem setRegs_withEvents (s : State) (es : List HostEvent) (ws : List (Reg × Word)) :
    (s.withEvents es).setRegs ws = (s.setRegs ws).withEvents es := by
  induction ws generalizing s with
  | nil => rfl
  | cons w rest ih => exact ih (s.setReg w.1 w.2)

theorem applyReply_withEvents (s : State) (es : List HostEvent) (r : HostReply) :
    (s.withEvents es).applyReply r = (s.applyReply r).withEvents es := by
  rw [State.applyReply, setRegs_withEvents]
  rfl

/-- A callback does the same whatever was recorded before it, and adds its own event. -/
theorem callHost_withEvents (s : State) (es : List HostEvent) (e : HostEvent) :
    (s.withEvents es).callHost e = (s.callHost e).withEvents (es ++ [e]) := by
  cases hr : s.replies with
  | nil => simp only [State.callHost, State.withEvents, hr]
  | cons r rest =>
    have hboth (past : List HostEvent) : (s.withEvents past).callHost e =
        ({ s with replies := rest }.applyReply r).withEvents (past ++ [e]) := by
      rw [← applyReply_withEvents]
      simp only [State.callHost, State.withEvents, hr]
    have hown : s.callHost e = _ := hboth s.events
    rw [hboth, hown]
    rfl

theorem callHost_afterEvents (s : State) (es : List HostEvent) (e : HostEvent) :
    .next ((s.withEvents es).callHost e) = afterEvents es (.next ((s.withEvents []).callHost e)) := by
  rw [callHost_withEvents s es, callHost_withEvents s []]
  rfl

theorem callHost_advance_afterEvents (s : State) (es : List HostEvent) (e : HostEvent) :
    .next ((s.withEvents es).callHost e).advance =
      afterEvents es (.next ((s.withEvents []).callHost e).advance) := by
  rw [callHost_withEvents s es, callHost_withEvents s []]
  rfl

theorem exec_withEvents (i : Instr) (s : State) (es : List HostEvent) :
    exec i (s.withEvents es) = afterEvents es (exec i (s.withEvents [])) := by
  cases i with
  | nop | jmi | hlt => exact next_afterEvents rfl rfl
  | add | sub | and | orr | xor | not | lsh | ash | tcu | tcs | set | mov | mul | sup | sxt | seq | jmp | cal =>
    exact guardRegs_afterEvents _ (next_afterEvents rfl rfl)
  | ldw | stw | ldb | stb =>
    exact guardRegs_afterEvents _
      (ite_afterEvents _ (next_afterEvents rfl rfl) (callHost_advance_afterEvents s es _))
  | div | mod =>
    exact guardRegs_afterEvents _
      (ite_afterEvents _ (callHost_advance_afterEvents s es _) (next_afterEvents rfl rfl))
  | bve | bvn | sia =>
    exact guardRegs_afterEvents _ (ite_afterEvents _ (next_afterEvents rfl rfl) (next_afterEvents rfl rfl))
  | ret => exact ite_afterEvents _ (next_afterEvents rfl rfl) (next_afterEvents rfl rfl)
  | int => exact callHost_advance_afterEvents s es _
  | snd => exact guardRegs_afterEvents _ (callHost_advance_afterEvents s es _)

theorem step_withEvents (s : State) (es : List HostEvent) :
    step (s.withEvents es) = afterEvents es (step (s.withEvents [])) := by
  by_cases hx : s.executing = true
  · by_cases hf : s.FetchOk
    · cases hd : decode s.wordAtPc with
      | ok i =>
        rw [step_of_decode_ok (s := s.withEvents es) hx hf hd, step_of_decode_ok (s := s.withEvents []) hx hf hd]
        exact exec_withEvents i s es
      | error e =>
        rw [step_of_decode_error (s := s.withEvents es) hx hf hd,
          step_of_decode_error (s := s.withEvents []) hx hf hd]
        exact callHost_afterEvents { s with executing := false } es _
    · rw [step_of_fetch_failed (s := s.withEvents es) hx hf, step_of_fetch_failed (s := s.withEvents []) hx hf]
      exact callHost_advance_afterEvents s es _
  · rw [Bool.not_eq_true] at hx
    rw [step_of_halted (s := s.withEvents es) hx, step_of_halted (s := s.withEvents []) hx]
    exact next_afterEvents rfl rfl

theorem afterEvents_next {es : List HostEvent} {r : Result} {t : State} (h : afterEvents es r = .next t) :
    ∃ u, r = .next u ∧ t = u.withEvents (es ++ u.events) := by
  cases r with
  | next u => exact ⟨u, rfl, (Host.Outcome.next.inj h).symm⟩
  | fault f => cases h
  | refused r => cases h

theorem afterEvents_fault {es : List HostEvent} {r : Result} {f : Fault} (h : afterEvents es r = .fault f) :
    r = .fault f := by
  cases r with
  | fault g => exact h
  | next u => cases h
  | refused r => cases h

/-- Settles O49: both machines answer what the one with an empty record answers, each behind its own record. -/
theorem pastEventsNeverInfluence : Obligations.PastEventsNeverInfluence := by
  intro s es
  have hown : step s = afterEvents s.events (step (s.withEvents [])) := step_withEvents s s.events
  have hes : step { s with events := es } = afterEvents es (step (s.withEvents [])) := step_withEvents s es
  constructor
  · intro t ht
    obtain ⟨u, hu, rfl⟩ := afterEvents_next (hown.symm.trans ht)
    exact ⟨u.events, rfl, by rw [hes, hu]; rfl⟩
  · intro f hf
    rw [hes, afterEvents_fault (hown.symm.trans hf)]
    rfl

end Sys2Proof.Machine

namespace Sys2Proof.Machine

/-! ### Shifts by a signed count (40_arith_logic.md, D5)

From a magnitude of 32 on the model answers by a case of its own; that answer is the one the shift itself gives. -/

theorem shiftLogical_of_nonneg {v count : Word} (h : 0 ≤ count.toInt) :
    shiftLogical v count = v <<< count.toInt.toNat := by
  have hn : count.toInt.natAbs = count.toInt.toNat := by omega
  simp only [shiftLogical, if_pos h, hn, ite_eq_right_iff]
  exact fun hbig => (BitVec.shiftLeft_eq_zero hbig).symm

theorem shiftLogical_of_neg {v count : Word} (h : count.toInt < 0) :
    shiftLogical v count = v >>> (-count.toInt).toNat := by
  have hn : count.toInt.natAbs = (-count.toInt).toNat := by omega
  simp only [shiftLogical, if_neg h.not_ge, hn, ite_eq_right_iff]
  exact fun hbig => (BitVec.ushiftRight_eq_zero hbig).symm

/-- To the left, the arithmetic shift is the logical one. -/
theorem shiftArithmetic_of_nonneg {v count : Word} (h : 0 ≤ count.toInt) :
    shiftArithmetic v count = v <<< count.toInt.toNat := by
  rw [← shiftLogical_of_nonneg h]
  simp only [shiftArithmetic, shiftLogical, if_pos h]

/-- A right shift by the width or more leaves only copies of the sign bit. -/
theorem sshiftRight_of_width_le {v : Word} {n : Nat} (h : 32 ≤ n) :
    v.sshiftRight n = if v.msb then 0xFFFFFFFF else 0 := by
  apply BitVec.eq_of_getLsbD_eq
  intro i hi
  rw [BitVec.getLsbD_sshiftRight, if_neg (by omega)]
  cases v.msb with
  | true =>
    change _ = (BitVec.allOnes 32).getLsbD i
    rw [BitVec.getLsbD_allOnes]
    simp [hi]
  | false => simp

theorem shiftArithmetic_of_neg {v count : Word} (h : count.toInt < 0) :
    shiftArithmetic v count = v.sshiftRight (-count.toInt).toNat := by
  have hn : count.toInt.natAbs = (-count.toInt).toNat := by omega
  simp only [shiftArithmetic, if_neg h.not_ge, hn, ite_eq_right_iff]
  exact fun hbig => (sshiftRight_of_width_le hbig).symm

/-- The unsigned reading of a word is its signed reading modulo `2 ^ 32`. -/
theorem coe_toNat_eq_toInt_emod (v : Word) : (v.toNat : Int) = v.toInt % 2 ^ 32 := by
  have hlt := v.isLt
  rw [BitVec.toInt]
  split <;> omega

theorem toNat_shiftLeft_word (v : Word) (n : Nat) : (v <<< n).toNat = v.toNat * 2 ^ n % 2 ^ 32 := by
  rw [BitVec.toNat_shiftLeft, Nat.shiftLeft_eq]

theorem toNat_ushiftRight_word (v : Word) (n : Nat) : (v >>> n).toNat = v.toNat / 2 ^ n := by
  rw [BitVec.toNat_ushiftRight, Nat.shiftRight_eq_div_pow]

/-- Shifting the unsigned and the signed reading to the left is the same modulo `2 ^ 32`. -/
theorem coe_toNat_shiftLeft (v : Word) (n : Nat) : ((v <<< n).toNat : Int) = v.toInt * 2 ^ n % 2 ^ 32 := by
  rw [toNat_shiftLeft_word]
  push_cast
  rw [coe_toNat_eq_toInt_emod]
  exact (Int.mod_modEq _ _).mul_right _

theorem coe_toNat_sshiftRight (v : Word) (n : Nat) :
    ((v.sshiftRight n).toNat : Int) = v.toInt.fdiv (2 ^ n) % 2 ^ 32 := by
  rw [coe_toNat_eq_toInt_emod, BitVec.toInt_sshiftRight, Int.shiftRight_eq_div_pow,
    Int.fdiv_eq_ediv_of_nonneg _ (by positivity)]
  push_cast
  rfl

/-! ### The other values -/

/-- The test of BVE, BVN and SEQ compares numbers (D10). -/
theorem equalsImm_iff (v : Word) (cmp8 : Byte) : equalsImm v cmp8 = true ↔ v.toNat = cmp8.toNat := by
  rw [equalsImm, decide_eq_true_eq, ← BitVec.toNat_inj, toNat_zext8]

theorem toNat_zext8_shiftLeft (b : Byte) (n : Nat) : (zext8 b <<< n).toNat = b.toNat * 2 ^ n % 2 ^ 32 := by
  rw [toNat_shiftLeft_word, toNat_zext8]

/-- The two's complement reading of the low bits, for each of the three widths (D9). -/
theorem toInt_signExtendFrom (n : Config.SxtWidth) (v : Word) :
    (signExtendFrom n v).toInt = Int.bmod v.toNat (2 ^ n.toNat) := by
  have hmin : min 32 n.toNat = n.toNat := by cases n <;> rfl
  rw [signExtendFrom, BitVec.toInt_signExtend, hmin, BitVec.toInt_setWidth, Int.bmod_bmod]

/-! ### Division by its divisor (43_muldiv_extended.md, D6) -/

theorem exec_div_of_ne_zero {rd rs1 rs2 : Reg} {s : State} (h0 : s.reg rs2 ≠ 0) :
    exec (.div rd rs1 rs2) s = guardRegs [rd, rs1, rs2] (writeAdvance rd ((s.reg rs1).udiv (s.reg rs2)) s) := by
  rw [exec, execDiv, if_neg h0]

theorem exec_mod_of_ne_zero {rd rs1 rs2 : Reg} {s : State} (h0 : s.reg rs2 ≠ 0) :
    exec (.mod rd rs1 rs2) s = guardRegs [rd, rs1, rs2] (writeAdvance rd ((s.reg rs1).umod (s.reg rs2)) s) := by
  rw [exec, execMod, if_neg h0]

theorem exec_of_zero_divisor {rd rs1 rs2 : Reg} {s : State} {i : Instr}
    (hi : i = .div rd rs1 rs2 ∨ i = .mod rd rs1 rs2) (hrs : [rd, rs1, rs2].all regOk = true) (h0 : s.reg rs2 = 0) :
    exec i s = failedDivision s := by
  obtain rfl | rfl := hi
  · rw [exec, execDiv, guardRegs_ok hrs, if_pos h0]
  · rw [exec, execMod, guardRegs_ok hrs, if_pos h0]

/-! ### The statements of 40_arith_logic.md and 43_muldiv_extended.md -/

/-- Settles O12: a guarded write of the word operation, which acts bit by bit. -/
theorem xorStandsAlone : Obligations.XorStandsAlone := by
  intro rd rs1 rs2 s hd h1 h2
  exact ⟨encodes_of_decodeLanes rfl, exec_of_guardedWrite (rs := [rd, rs1, rs2]) rfl (by simp [hd, h1, h2])
    List.mem_cons_self fun _ _ => BitVec.getLsbD_xor⟩

/-- Settles O13: a guarded write of a left or a right shift by the count's magnitude. -/
theorem logicalShiftFollowsTheFormula : Obligations.LogicalShiftFollowsTheFormula := by
  intro rd rs1 rs2 s hd h1 h2
  refine ⟨encodes_of_decodeLanes rfl, exec_of_guardedWrite (rs := [rd, rs1, rs2]) rfl (by simp [hd, h1, h2])
    List.mem_cons_self ⟨fun h => ?_, fun h => ?_⟩⟩
  · rw [shiftLogical_of_nonneg h, toNat_shiftLeft_word]
  · rw [shiftLogical_of_neg h, toNat_ushiftRight_word]

/-- Settles O14: as LSH, on the signed reading of the operand. -/
theorem arithmeticShiftFollowsTheFormula : Obligations.ArithmeticShiftFollowsTheFormula := by
  intro rd rs1 rs2 s hd h1 h2
  refine ⟨encodes_of_decodeLanes rfl, exec_of_guardedWrite (rs := [rd, rs1, rs2]) rfl (by simp [hd, h1, h2])
    List.mem_cons_self ⟨fun h => ?_, fun h => ?_⟩⟩
  · rw [shiftArithmetic_of_nonneg h, coe_toNat_shiftLeft]
  · rw [shiftArithmetic_of_neg h, coe_toNat_sshiftRight]

/-- Settles O26: a guarded write of the product modulo 2^32. -/
theorem multiplyKeepsTheLowHalf : Obligations.MultiplyKeepsTheLowHalf := by
  intro rd rs1 rs2 s hd h1 h2
  exact ⟨encodes_of_decodeLanes rfl, exec_of_guardedWrite (rs := [rd, rs1, rs2]) rfl (by simp [hd, h1, h2])
    List.mem_cons_self (BitVec.toNat_mul _ _)⟩

/-- Settles O27: both are a guarded write, of the quotient and of the remainder of the unsigned division. -/
theorem divideAndRemainder : Obligations.DivideAndRemainder := by
  intro rd rs1 rs2 s hd h1 h2 h0
  have hrs : [rd, rs1, rs2].all regOk = true := by simp [hd, h1, h2]
  have hpos : 0 < (s.reg rs2).toNat := Nat.pos_of_ne_zero fun h => h0 (BitVec.eq_of_toNat_eq h)
  obtain ⟨t, q, hdiv, hq, hqval⟩ := exec_of_guardedWrite
    (P := fun q => q.toNat = (s.reg rs1).toNat / (s.reg rs2).toNat) (exec_div_of_ne_zero h0) hrs
    List.mem_cons_self BitVec.toNat_udiv
  obtain ⟨t', r, hmod, hr, hrval⟩ := exec_of_guardedWrite
    (P := fun r => r.toNat = (s.reg rs1).toNat % (s.reg rs2).toNat) (exec_mod_of_ne_zero h0) hrs
    List.mem_cons_self BitVec.toNat_umod
  refine ⟨encodes_of_decodeLanes rfl, encodes_of_decodeLanes rfl, t, q, t', r, hdiv, hq, hmod, hr, ?_, ?_⟩
  · rw [hqval, hrval, Nat.div_add_mod']
  · rw [hrval]; exact Nat.mod_lt _ hpos

/-- Settles O28: both end in `failedDivision`, the error callback and then `advance`. -/
theorem divisionByZeroIsReported : Obligations.DivisionByZeroIsReported := by
  intro rd rs1 rs2 s hd h1 h2 h0 i hi
  exact ⟨_, _, exec_of_zero_divisor hi (by simp [hd, h1, h2]) h0, callHost_acts s _, advance_advancesOnly _⟩

/-- Settles O29: below a count of 32 a guarded write of the sum, from 32 on `advance` alone. -/
theorem shiftImmediateAdd : Obligations.ShiftImmediateAdd := by
  intro rd val8 sh8 s hd
  have hrs : [rd].all regOk = true := by simp [hd]
  refine ⟨encodes_of_decodeLanes rfl, fun hlt => ?below, fun hge => ?from32⟩
  case below =>
    refine exec_of_guardedWrite (v := s.reg rd + (zext8 val8 <<< sh8.toNat)) (by rw [exec, execSia, if_pos hlt]) hrs
      List.mem_cons_self ?_
    rw [BitVec.toNat_add, toNat_zext8_shiftLeft]
  case from32 =>
    exact ⟨s.advance, by rw [exec, execSia, guardRegs_ok hrs, if_neg hge.not_gt], advance_advancesOnly s⟩

/-- Settles O30: a guarded write of the sign extension, whose width is at most that of a word. -/
theorem signExtendFromTheParameter : Obligations.SignExtendFromTheParameter := by
  intro rd rs1 x3 s hd h1
  exact ⟨encodes_of_decodeLanes rfl, exec_of_guardedWrite (rs := [rd, rs1]) rfl (by simp [hd, h1])
    List.mem_cons_self (toInt_signExtendFrom _ _)⟩

/-- Settles O31: a guarded write of 1 or 0, by the test of BVE. -/
theorem setIfEqual : Obligations.SetIfEqual := by
  intro rd rs1 cmp8 s hd h1
  refine ⟨encodes_of_decodeLanes rfl, exec_of_guardedWrite (rs := [rd, rs1]) rfl (by simp [hd, h1])
    List.mem_cons_self ⟨fun heq => ?_, fun hne => ?_⟩⟩
  · rw [if_pos ((equalsImm_iff _ _).2 heq)]; rfl
  · rw [if_neg (mt (equalsImm_iff _ _).1 hne)]; rfl

end Sys2Proof.Machine

namespace Sys2Proof.Machine

/-! ### Mixed widths (20_memory.md section 5) -/

theorem Memory.readWord_writeWord (m : Memory) (a : Nat) (v : Word) : (m.writeWord a v).readWord a = v := by
  rw [Machine.readWord_writeWord, word_lanes]

/-- Byte `k` of a stored word is its lane `k`, counted from the most significant. -/
theorem Memory.read_writeWord_lane (m : Memory) (a : Nat) (v : Word) {k : Nat} (hk : k < 4) :
    (m.writeWord a v).read (a + k) = v.extractLsb' (24 - 8 * k) 8 := by
  rw [Memory.read_writeWord]
  match k with
  | 0 | 1 | 2 | 3 => simp [lanes]

theorem Memory.readWord_of_reads {m : Memory} {a : Nat} {b0 b1 b2 b3 : Byte} (h0 : m.read a = b0)
    (h1 : m.read (a + 1) = b1) (h2 : m.read (a + 2) = b2) (h3 : m.read (a + 3) = b3) :
    m.readWord a = b0 ++ b1 ++ b2 ++ b3 := by
  rw [Memory.readWord, h0, h1, h2, h3]

/-! ### Accesses in bounds (41_move_load_store.md) -/

/-- The shape the four memory instructions share: in bounds, the transfer `done` runs. The other case is
`guardedAccess_outOfBounds`. -/
theorem guardedAccess_inBounds {r rbase : Reg} {off8 : Byte} {s : State} {n : Nat} {done : Result}
    (hin : InBounds s.memSize (effAddr s rbase off8) n) :
    guardRegs [r, rbase] (if s.inBounds (s.ea rbase off8) n then done else failedAccess s) =
      guardRegs [r, rbase] done := by
  rw [ea_eq, if_pos (by rwa [inBounds_iff])]

/-- The bytes of a word at an address given as an integer. -/
theorem Memory.toNat_readWord_int (m : Memory) {ea : Int} (h0 : 0 ≤ ea) :
    (m.readWord ea.toNat).toNat = (m.read ea.toNat).toNat * 2 ^ 24 + (m.read (ea + 1).toNat).toNat * 2 ^ 16 +
      (m.read (ea + 2).toNat).toNat * 2 ^ 8 + (m.read (ea + 3).toNat).toNat := by
  lift ea to Nat using h0
  exact m.toNat_readWord ea

/-- Storing a run of bytes and advancing. STW stores `wordBytes`, STB one byte. -/
theorem writeBytes_advance_stores (s : State) {ea : Int} (h0 : 0 ≤ ea) (bs : List Byte) :
    Stores ea bs s { s with mem := s.mem.writeBytes ea.toNat bs }.advance where
  quiet := ⟨rfl, rfl, rfl, rfl, rfl⟩
  regs q _ hq := by simp_all
  pc := by rw [advance_pc, pc_withMem, toNat_add_four]
  stored k b hb := by
    rw [advance_mem, Memory.read_writeBytes, if_pos (by omega), show (ea + k).toNat - ea.toNat = k by omega, hb,
      Option.getD_some]
  others c hc := by
    rw [advance_mem, Memory.read_writeBytes]
    split
    · rw [List.getElem?_eq_none (by omega), Option.getD_none]
    · rfl

theorem exec_ldw_inBounds {rd rbase : Reg} {off8 : Byte} {s : State}
    (hin : InBounds s.memSize (effAddr s rbase off8) 4) : exec (.ldw rd rbase off8) s =
      guardRegs [rd, rbase] (writeAdvance rd (s.mem.readWord (effAddr s rbase off8).toNat) s) := by
  rw [← ea_eq]
  exact guardedAccess_inBounds hin

theorem exec_ldb_inBounds {rd rbase : Reg} {off8 : Byte} {s : State}
    (hin : InBounds s.memSize (effAddr s rbase off8) 1) : exec (.ldb rd rbase off8) s =
      guardRegs [rd, rbase] (writeAdvance rd (zext8 (s.mem.read (effAddr s rbase off8).toNat)) s) := by
  rw [← ea_eq]
  exact guardedAccess_inBounds hin

theorem exec_stw_inBounds {rsrc rbase : Reg} {off8 : Byte} {s : State} (hsrc : regOk rsrc = true)
    (hbase : regOk rbase = true) (hin : InBounds s.memSize (effAddr s rbase off8) 4) :
    exec (.stw rsrc rbase off8) s =
      .next { s with mem := s.mem.writeWord (effAddr s rbase off8).toNat (s.reg rsrc) }.advance := by
  rw [← ea_eq]
  exact (guardedAccess_inBounds hin).trans (guardRegs_ok (by simp [hsrc, hbase]))

theorem exec_stb_inBounds {rsrc rbase : Reg} {off8 : Byte} {s : State} (hsrc : regOk rsrc = true)
    (hbase : regOk rbase = true) (hin : InBounds s.memSize (effAddr s rbase off8) 1) :
    exec (.stb rsrc rbase off8) s =
      .next { s with mem := s.mem.write (effAddr s rbase off8).toNat ((s.reg rsrc).setWidth 8) }.advance := by
  rw [← ea_eq]
  exact (guardedAccess_inBounds hin).trans (guardRegs_ok (by simp [hsrc, hbase]))

/-! ### The fetch behind an instruction (20_memory.md sections 3 and 8) -/

/-- The next fetch of a state that advances: whether it reads memory, and the word it reads. -/
theorem fetchOk_advance (s : State) : s.advance.FetchOk ↔ (s.pc + 4).toNat + 4 < s.memSize := by
  rw [State.FetchOk, advance_pc, advance_memSize]

theorem wordAtPc_advance (s : State) : s.advance.wordAtPc = s.mem.readWord (s.pc + 4).toNat := by
  rw [State.wordAtPc, advance_pc, advance_mem]

/-! ### The statements of 20_memory.md and 41_move_load_store.md -/

/-- Settles O8: each byte of a stored word is a lane of it, and the four lanes make the word. -/
theorem mixedWidthsSeeBigEndian : Obligations.MixedWidthsSeeBigEndian := by
  intro m a v b0 b1 b2 b3
  refine ⟨fun k hk => m.read_writeWord_lane a v hk, m.readWord_writeWord a v, ?_⟩
  apply Memory.readWord_of_reads <;> simp [Memory.read_write]

/-- Settles O17: in bounds both are a guarded write, of the four bytes put together and of the one byte. -/
theorem loadsInBounds : Obligations.LoadsInBounds := by
  intro rd rbase off8 s hd hbase
  have hrs : [rd, rbase].all regOk = true := by simp [hd, hbase]
  refine ⟨encodes_of_decodeLanes rfl, encodes_of_decodeLanes rfl, fun hin => ?ldw, fun hin => ?ldb⟩
  case ldw =>
    exact exec_of_guardedWrite (exec_ldw_inBounds hin) hrs List.mem_cons_self (Memory.toNat_readWord_int _ hin.1)
  case ldb => exact exec_of_guardedWrite (exec_ldb_inBounds hin) hrs List.mem_cons_self (toNat_zext8 _)

/-- Settles O18: in bounds both store a run of bytes, STW the four lanes and STB the lowest. -/
theorem storesInBounds : Obligations.StoresInBounds := by
  intro rsrc rbase off8 s hsrc hbase
  refine ⟨encodes_of_decodeLanes rfl, encodes_of_decodeLanes rfl, fun hin => ?stw, fun hin => ?stb⟩
  case stw => exact ⟨_, exec_stw_inBounds hsrc hbase hin, writeBytes_advance_stores s hin.1 _⟩
  case stb =>
    rw [← BitVec.setWidth_eq_extractLsb' (by decide)]
    exact ⟨_, exec_stb_inBounds hsrc hbase hin, writeBytes_advance_stores s hin.1 _⟩

/-- Settles O20: PC + 4 does not wrap below MEM_SIZE, so the fetch there reads the word just stored. -/
theorem storedWordIsTheNextFetched : Obligations.StoredWordIsTheNextFetched := by
  intro rsrc rbase off8 s hsrc hbase hpc hmax hea
  have hin : InBounds s.memSize (effAddr s rbase off8) 4 := by constructor <;> omega
  have hnext : (s.pc + 4).toNat = s.pc.toNat + 4 := by
    rw [Config.maxMemSize] at hmax
    rw [toNat_add_four, Nat.mod_eq_of_lt (by omega)]
  have haddr : (effAddr s rbase off8).toNat = (s.pc + 4).toNat := by omega
  have hexec := exec_stw_inBounds hsrc hbase hin
  rw [haddr] at hexec
  have hfetch : State.FetchOk { s with mem := s.mem.writeWord (s.pc + 4).toNat (s.reg rsrc) }.advance :=
    (fetchOk_advance _).2 (show (s.pc + 4).toNat + 4 < s.memSize by omega)
  have hword : State.wordAtPc { s with mem := s.mem.writeWord (s.pc + 4).toNat (s.reg rsrc) }.advance = s.reg rsrc :=
    (wordAtPc_advance _).trans (Memory.readWord_writeWord s.mem _ _)
  exact ⟨_, hexec, hfetch, by rw [fetch_ok hfetch, hword]⟩

end Sys2Proof.Machine

namespace Sys2Proof.Machine

/-! ### A conditional branch (42_control_transfer.md) -/

theorem branchIf_true (rtarget : Reg) (s : State) : branchIf true rtarget s = .next (s.jump (s.reg rtarget)) := rfl

theorem branchIf_false (rtarget : Reg) (s : State) : branchIf false rtarget s = .next s.advance := rfl

/-- A guarded branch goes to its target when taken, and otherwise only advances. -/
theorem exec_of_guardedBranch {i : Instr} {rs : List Reg} {taken : Bool} {rtarget : Reg} {s : State}
    (hexec : exec i s = guardRegs rs (branchIf taken rtarget s)) (hrs : rs.all regOk = true) :
    ∃ t, exec i s = .next t ∧ (taken = true → JumpsTo (s.reg rtarget) s t) ∧ (taken ≠ true → AdvancesOnly s t) := by
  rw [hexec, guardRegs_ok hrs]
  cases taken with
  | true => exact ⟨_, branchIf_true rtarget s, fun _ => jump_jumpsTo s _, fun h => absurd rfl h⟩
  | false => exact ⟨_, branchIf_false rtarget s, fun h => absurd h Bool.false_ne_true, fun _ => advance_advancesOnly s⟩

/-! ### CAL and RET -/

/-- The state CAL answers. -/
def State.called (s : State) (rtarget : Reg) : State := s.link.jump (s.link.reg rtarget)

theorem exec_cal {rtarget : Reg} (h : regOk rtarget = true) (x2 x3 : Byte) (s : State) :
    exec (.cal rtarget x2 x3) s = .next (s.called rtarget) :=
  guardRegs_ok (rs := [rtarget]) (by simp [h])

theorem called_lr (s : State) (rtarget : Reg) : (s.called rtarget).reg Slot.lr = s.pc + 4 := by
  simp [State.called, reg_link]

theorem exec_ret_of_lr_zero {s : State} (h : s.reg Slot.lr = 0) (x1 x2 x3 : Byte) :
    exec (.ret x1 x2 x3) s = .next { s with executing := false } := if_pos h

theorem exec_ret_of_lr_ne_zero {s : State} (h : s.reg Slot.lr ≠ 0) (x1 x2 x3 : Byte) :
    exec (.ret x1 x2 x3) s = .next ((s.jump (s.reg Slot.lr)).setReg Slot.lr 0) := if_neg h

theorem returned_pc (s : State) : ((s.jump (s.reg Slot.lr)).setReg Slot.lr 0).pc = s.reg Slot.lr := by
  simp [State.pc, reg_jump]

/-! ### The statements of 42_control_transfer.md -/

/-- Settles O22: both are a guarded branch, on the test and on its negation. -/
theorem conditionalBranches : Obligations.ConditionalBranches := by
  intro rtarget rs1 cmp8 s ht h1
  have hrs : [rtarget, rs1].all regOk = true := by simp [ht, h1]
  refine ⟨⟨encodes_of_decodeLanes rfl, ?bve⟩, encodes_of_decodeLanes rfl, ?bvn⟩
  case bve =>
    simpa only [ne_eq, equalsImm_iff] using exec_of_guardedBranch (i := .bve rtarget rs1 cmp8) (s := s) rfl hrs
  case bvn =>
    simpa only [ne_eq, Bool.not_eq_true', ← Bool.not_eq_true, equalsImm_iff, not_not] using
      exec_of_guardedBranch (i := .bvn rtarget rs1 cmp8) (s := s) rfl hrs

/-- Settles O23: the target is read from the register file that holds the new LR. -/
theorem callLinksThenJumps : Obligations.CallLinksThenJumps := by
  intro rtarget x2 x3 s ht
  refine ⟨encodes_of_decodeLanes rfl, s.called rtarget, exec_cal ht x2 x3 s, ⟨rfl, rfl, rfl, rfl, rfl⟩, fun _ => rfl,
    ?regs, ?link, fun hne => ?target, fun heq => ?targetLr⟩
  case regs =>
    intro q _ hq
    obtain ⟨hpc, hlr⟩ : q ≠ Slot.pc ∧ q ≠ Slot.lr := by simpa using hq
    simp [State.called, reg_link, hpc, hlr]
  case link => rw [called_lr, toNat_add_four]
  case target => rw [State.called, jump_pc, reg_link, if_neg hne]
  case targetLr => rw [called_lr, State.called, jump_pc, reg_link, if_pos heq]

/-- Settles O24: the two branches of RET on LR. -/
theorem returnJumpsOrHalts : Obligations.ReturnJumpsOrHalts := by
  intro x1 x2 x3 s
  refine ⟨encodes_of_decodeLanes rfl, ?_⟩
  by_cases h : s.reg Slot.lr = 0
  · exact ⟨_, exec_ret_of_lr_zero h x1 x2 x3, fun _ => clearExecuting_haltsHere s, fun hne => absurd h hne⟩
  · refine ⟨_, exec_ret_of_lr_ne_zero h x1 x2 x3, fun h0 => absurd h0 h, fun _ => ⟨⟨rfl, rfl, rfl, rfl, rfl⟩,
      fun _ => rfl, ?regs, returned_pc s, reg_setReg_same _ _ _ regOk_lr⟩⟩
    intro q _ hq
    obtain ⟨hpc, hlr⟩ : q ≠ Slot.pc ∧ q ≠ Slot.lr := by simpa using hq
    simp [hpc, hlr]

/-- Settles O25: the link PC + 4 does not wrap to 0, so RET takes its jump. -/
theorem returnComesBackBehindTheCall : Obligations.ReturnComesBackBehindTheCall := by
  intro rtarget x2 x3 y1 y2 y3 s ht hpc
  refine ⟨_, exec_cal ht x2 x3 s, fun u hu => ?_⟩
  have hlink : (u.reg Slot.lr).toNat = s.pc.toNat + 4 := by
    rw [hu, called_lr, toNat_add_four, Nat.mod_eq_of_lt hpc]
  have hne : u.reg Slot.lr ≠ 0 := by
    intro h0
    simp [h0] at hlink
  exact ⟨_, exec_ret_of_lr_ne_zero hne y1 y2 y3, by rw [returned_pc, hlink], reg_setReg_same _ _ _ regOk_lr, rfl⟩

end Sys2Proof.Machine

namespace Sys2Proof.Machine

/-! ### A reply for every state the callback contract allows (60_exceptions.md section 2, D15) -/

/-- The writes that give each key `k` of a list the value `f k`. -/
theorem lastWrite_map_pair {α β : Type} [DecidableEq α] (f : α → β) (ks : List α) (k : α) :
    lastWrite (ks.map fun j => (j, f j)) k = if k ∈ ks then some (f k) else none := by
  induction ks with
  | nil => rfl
  | cons j rest ih =>
    rw [List.map_cons, lastWrite, ih]
    by_cases hk : j = k
    · subst hk
      simp only [List.mem_cons_self, if_true]
      split <;> rfl
    · simp [hk, Ne.symm hk]

/-- Every slot of the register file. -/
def allSlots : List Reg := (List.range 37).map (BitVec.ofNat 8)

theorem mem_allSlots {q : Reg} (h : regOk q = true) : q ∈ allSlots :=
  List.mem_map.2 ⟨q.toNat, List.mem_range.2 ((regOk_iff q).1 h), by simp⟩

/-- A reply that overwrites all the contract lets a callback write with what `u` holds. -/
def HostReply.reaching (u : State) : HostReply where
  regs := allSlots.map fun q => (q, u.reg q)
  mem := (List.range u.memSize).map fun a => (a, u.mem.read a)
  halt := !u.executing
  ret := 0

/-- A byte at or above MEM_SIZE reads as init left it. -/
theorem State.Inv.read_above {s : State} (h : s.Inv) {a : Nat} (ha : s.memSize ≤ a) : s.mem.read a = Memory.unlisted :=
  Memory.read_of_not_listed fun c hc => (ha.trans_lt' (h.memBelow c hc)).ne

theorem reg_applyReply (s : State) (r : HostReply) {q : Reg} (h : regOk q = true) :
    (s.applyReply r).reg q = (lastWrite r.regs q).getD (s.reg q) := reg_setRegs s r.regs q h

theorem read_applyReply (s : State) (r : HostReply) (a : Nat) :
    (s.applyReply r).mem.read a = if a < s.memSize then (lastWrite r.mem a).getD (s.mem.read a) else s.mem.read a :=
  Memory.read_writeCells s.memSize s.mem r.mem a

theorem mem_applyReply_reaching {s u : State} (hs : s.Inv) (hu : u.Inv) (hn : u.memSize = s.memSize) :
    (s.applyReply (.reaching u)).mem = u.mem := by
  refine Memory.ext_of_read (Memory.wf_writeCells hs.memWf _ _) hu.memWf fun a => ?_
  simp only [read_applyReply, HostReply.reaching, lastWrite_map_pair, List.mem_range, hn]
  split
  · rfl
  · rw [hs.read_above (by omega), hu.read_above (by omega)]

/-! ### The statements about the host ports (44_system.md, 60_exceptions.md) -/

/-- Settles O33: the callback runs once on the state, PC advances from where it left it, and no meaning reads `ret`. -/
theorem sndInvokesTheDeviceCallback : Obligations.SndInvokesTheDeviceCallback := by
  intro rdev rcmd rdata s h1 h2 h3
  refine ⟨encodes_of_decodeLanes rfl, ?acts, fun _ _ _ => rfl⟩
  exact ⟨_, _, guardRegs_ok (rs := [rdev, rcmd, rdata]) (by simp [h1, h2, h3]), callHost_acts s _,
    advance_advancesOnly _⟩

/-- Settles O36: the reply that writes every slot and every byte below MEM_SIZE as the target holds it. -/
theorem repliesReachEveryAllowedState : Obligations.RepliesReachEveryAllowedState := by
  intro s u hs hu hn hx
  refine ⟨.reaching u, fun q hq => ?regs, mem_applyReply_reaching hs hu hn, ?executing⟩
  case regs =>
    rw [reg_applyReply s _ hq, HostReply.reaching, lastWrite_map_pair, if_pos (mem_allSlots hq), Option.getD_some]
  case executing =>
    simp only [State.applyReply, HostReply.reaching, Bool.not_not]
    cases h : u.executing with
    | true => rw [hx h]; rfl
    | false => exact Bool.and_false _

end Sys2Proof.Machine

namespace Sys2Proof.Machine

/-! ### The register file at reset (R26) -/

theorem reg_reset (q : Reg) :
    State.reset.reg q = if q = Slot.sp then BitVec.ofNat 32 (memSizeAtReset - 1) else 0 := by
  simp only [State.reg, State.reset, Vector.getElem?_set, Vector.getElem?_replicate]
  by_cases h : q = Slot.sp
  · subst h; rfl
  · have hq : 36 ≠ q.toNat := fun e => h (BitVec.eq_of_toNat_eq e.symm)
    rw [if_neg hq, if_neg h]
    split <;> rfl

/-! ### The statements about load and reset (70_reset_and_hazards.md) -/

/-- Settles O46: memory lists no byte at reset, and MEM_SIZE is the largest the spec allows. -/
theorem resetMeetsTheInvariant : Obligations.ResetMeetsTheInvariant where
  memWf := Memory.wf_nil
  memBelow _ h := absurd h List.not_mem_nil
  sizePos := by decide
  sizeMax := le_rfl

/-- Settles O52: the other branch of `load_of_fits`. -/
theorem loadRefusesALongProgram : Obligations.LoadRefusesALongProgram := fun _ _ h => if_neg h.not_ge

/-- Settles O53: the two states read alike in every slot and agree in the other fields. -/
theorem resetIsInitThenLoad : Obligations.ResetIsInitThenLoad := by
  intro s hn hb hp he
  rw [load_of_fits (Nat.zero_le _)]
  congr 1
  refine State.ext_of_reads _ _ (fun q _ => ?regs) rfl rfl hn hb hp he
  rw [reg_loaded, reg_init, reg_reset, ite_self, State.init, hn]

end Sys2Proof.Machine
